-- ==== Sys2Proof/Config.lean ====
section
/-! DEFINITION. The sizes of the block and its one open parameter that a model needs (rule R3).
The numeric constants an error could hide in (POLY, INITIAL_VALUE, XOR_VALUE, the table) are in
Machine/Constants.lean and Machine/Table.lean. -/

namespace Sys2Proof.Config

/-- `CMD_WIDTH`: the width in bits of a command word (rules R3, R33). -/
abbrev cmdWidth : Nat := 10

/-- `TABLE_SIZE`: the number of table entries (rules R3, R20). -/
abbrev tableSize : Nat := 256

/-- The default of the open parameter `N_INST`, the number of copies of the block (rules R3, R32). -/
abbrev nInstDefault : Nat := 1

end Sys2Proof.Config
end

