-- ==== Sys2Proof/Word.lean ====
section
/-! DEFINITION. The two word types: the `u8` of rule R3 (`W` = 8) and the command word of rule R33. -/

namespace Sys2Proof

/-- `u8`: the width of the accumulator, of a table entry, of a data byte, of `start_value` and of
the result (rule R3, parameter `W`). -/
abbrev Byte := BitVec 8

/-- A command word of format `C`: bits [9:8] are `op`, bits [7:0] are `d` (rule R33). -/
abbrev CmdWord := BitVec 10

end Sys2Proof
end

