-- ==== Sys2Proof/Syntax.lean ====
section
/-! DEFINITION. The command set CRC8CMD version 1: one constructor per row of the opcode table. -/

namespace Sys2Proof

/-- The four commands (rule R34). `INIT` and `FIN` carry no operand: their field `d` is ignored and
every value of it is the same command (rule R36). -/
inductive Instr where
  /-- `INIT`: start a first call (rule R43). -/
  | init
  /-- `SEED s`: start a continuing call from the previous result `s` (rule R44). -/
  | seed (s : Byte)
  /-- `BYTE b`: fold one data byte into the accumulator (rule R46). -/
  | byte (b : Byte)
  /-- `FIN`: finalise, return the result, close the call (rule R50). -/
  | fin
deriving DecidableEq, Repr

end Sys2Proof
end

