-- ==== Sys2Proof/Machine/Flags.lean ====
section
/-! DEFINITION. The one flag, `OPEN`: which commands it lets through and what each leaves in it
(rules R11, R53). There is no other flag. -/

namespace Sys2Proof.Machine

/-- The value of `OPEN` at which a command is in order (rule R53). -/
def openRequired : Instr → Bool
  | .init => false
  | .seed _ => false
  | .byte _ => true
  | .fin => true

/-- The value of `OPEN` after the command (rule R11). -/
def openAfter : Instr → Bool
  | .init => true
  | .seed _ => true
  | .byte _ => true
  | .fin => false

/-- Whether `OPEN` allows the command; decided by `OPEN` and the command's `op` alone (rule R68). -/
def orderAllows (opened : Bool) (i : Instr) : Bool := opened == openRequired i

end Sys2Proof.Machine
end

