-- ==== Sys2Proof/Machine/Constants.lean ====
section
/-! DEFINITION. The hardwired constants of the block (rule R14) and the two expected values a host
tests it with (rule R19). Each literal stands in one definition (93_implementation_defined.md U9).
UNVERIFIED, unsafe if wrong: log entry 12. -/

namespace Sys2Proof.Machine

/-- `INITIAL_VALUE`, read only by `INIT` (rule R14). -/
def initialValue : Byte := 0xFF

/-- `XOR_VALUE`, read only by `SEED` and `FIN` (rule R14). -/
def xorValue : Byte := 0xFF

/-- `POLY`: the generator polynomial's low eight coefficients (rule R3). -/
def poly : Byte := 0x1D

/-- `CHECK`: not stored in the block; the result the host expects of a first call over
"123456789" (rules R19, R59). -/
def check : Byte := 0x4B

/-- `MAGIC_CHECK`: not stored in the block; the result the host expects of a first call over the
one byte `CHECK` (rules R19, R60). -/
def magicCheck : Byte := 0xE7

end Sys2Proof.Machine
end

