-- ==== Sys2Proof/Machine/Operands.lean ====
section
/-! DEFINITION. What the commands compute from their operand and the accumulator: the two XORs with
`XOR_VALUE` and the one addressing mode (rules R44, R49, R50). The arithmetic of the block is XOR
and table lookup, nothing else (rule R48). -/

namespace Sys2Proof.Machine

/-- The raw accumulator a continuing call starts from: `XOR_VALUE ^ s` (rule R44). -/
def unfinalise (s : Byte) : Byte := xorValue ^^^ s

/-- The visible value of a raw accumulator: `ACC ^ XOR_VALUE` (rule R50). -/
def finalise (a : Byte) : Byte := a ^^^ xorValue

/-- The effective address of the table read: `ACC ^ b` (rule R49). -/
def tableIndex (a b : Byte) : Byte := a ^^^ b

/-- The new raw accumulator after one data byte: `TABLE[ACC ^ b]` (rule R46). -/
def foldByte (a b : Byte) : Byte := table (tableIndex a b)

end Sys2Proof.Machine
end

