-- ==== Sys2Proof/WellFormed.lean ====
section
/-! DEFINITION. Which commands and which command sequences are well formed.
Every single command is (rule R37: no illegal, no reserved encoding); a sequence has to be a
concatenation of whole calls (rule R53). -/

namespace Sys2Proof

/-- Every command with every operand is legal (rules R35, R37, R64). -/
def Instr.wf : Instr → Bool
  | .init => true
  | .seed _ => true
  | .byte _ => true
  | .fin => true

/-- A number is a command word exactly when it fits `CMD_WIDTH` bits: 0x000 to 0x3FF (rule R33). -/
def wordWf (w : Nat) : Bool := decide (w < 2 ^ Config.cmdWidth)

/-- The order check of a command sequence presented to a copy of the block whose `OPEN` is
`opened`: whether it goes through and ends with no call open, read off rule R53's grammar
`trace ::= call*`, `call ::= start BYTE* FIN`. -/
def traceWf : (opened : Bool) → List Instr → Bool
  | opened, [] => !opened
  | false, .init :: rest => traceWf true rest
  | false, .seed _ :: rest => traceWf true rest
  | false, .byte _ :: _ => false
  | false, .fin :: _ => false
  | true, .init :: _ => false
  | true, .seed _ :: _ => false
  | true, .byte _ :: rest => traceWf true rest
  | true, .fin :: rest => traceWf false rest

end Sys2Proof
end

