-- ==== Sys2Proof/Decode.lean ====
section
/-! DEFINITION. The decoder of the one format `C`, then the encoder written from the same table
(rules R33 to R38). Decoding is total and stateless: every word is a command (rule R37). -/

namespace Sys2Proof

/-- The field `op`, bits [9:8] (rule R33). -/
def opField (w : CmdWord) : BitVec 2 := w.extractLsb' 8 2

/-- The field `d`, bits [7:0], taken as it stands (rule R35). -/
def dField (w : CmdWord) : Byte := w.extractLsb' 0 8

/-- The opcode map (rule R34). -/
def decode (w : CmdWord) : Instr :=
  if opField w = 0b00#2 then .init
  else if opField w = 0b01#2 then .seed (dField w)
  else if opField w = 0b10#2 then .byte (dField w)
  else .fin

/-- Why a number presented as a command word is rejected. -/
inductive DecodeError where
  /-- The number has a bit set above bit 9 and so is no word of the one length (rule R38). Safe. -/
  | notACommandWord
deriving DecidableEq, Repr

/-- Decoding of a number, rejecting by name one that is no 10-bit word (rules R33, R38).
DEDUCED, safe: log entry 14. -/
def decodeNat (w : Nat) : Except DecodeError Instr :=
  if wordWf w then .ok (decode (BitVec.ofNat 10 w)) else .error .notACommandWord

/-- The word `{op, d}` (rule R33). -/
def packWord (op : BitVec 2) (d : Byte) : CmdWord := op ++ d

/-- The canonical encoding of a command (rules R34, R36). -/
def encode : Instr → CmdWord
  | .init => packWord 0b00 0x00
  | .seed s => packWord 0b01 s
  | .byte b => packWord 0b10 b
  | .fin => packWord 0b11 0x00

/-- The command this decoder reads from an opcode-table word: a command is one word of one length
(rule R38), so bits at and above `nbits` count as 0 and a set bit above bit 9 is refused. -/
def decodeTableWord (nbits w : Nat) : Option Instr :=
  (decodeNat (w % 2 ^ nbits)).toOption

end Sys2Proof
end

