-- ==== Sys2Proof/Machine/State.lean ====
section
/-! DEFINITION. The state of one copy of the block, the reasons a step can stop, and the state after
reset. The architectural state is the pair (`OPEN`, `ACC`) (rule R12); the other fields are what the
spec asks a model to keep beside it. -/

namespace Sys2Proof.Machine

/-- One clock cycle's inputs, sampled at the rising edge that ends it (rule R40). -/
structure Cycle where
  /-- `rst`: synchronous reset, active high (rule R74). -/
  rst : Bool
  /-- `cmd_valid`: a command word is presented in this cycle. -/
  cmdValid : Bool
  /-- `cmd_op[1:0]`: command word bits [9:8]. -/
  cmdOp : BitVec 2
  /-- `cmd_data[7:0]`: command word bits [7:0]. -/
  cmdData : Byte
deriving DecidableEq, Repr

/-- What the model knows of a copy of the block besides its registers (rules R66, R74). -/
inductive Condition where
  /-- Reset at least once, and no sequence violation since. -/
  | running
  /-- The sequence violation of `cmd` is recorded and no reset has come since (rule R66). -/
  | violated (cmd : Instr)
  /-- Powered up and never reset: the hardware's state is undefined (rule R74). -/
  | unreset
deriving DecidableEq, Repr

/-- The state of one copy of the block. -/
structure State where
  /-- `OPEN`, the in-call flag (rule R11). -/
  openFlag : Bool
  /-- `ACC`, the raw accumulator, or `none` (rule R10). -/
  acc : Option Byte
  /-- The fault marker and the mark of a missing first reset: model bookkeeping (rules R66, R74).
  DEDUCED, safe: log entries 3 and 4. -/
  condition : Condition
  /-- The host's input cycles not yet clocked, the coming one first (rules R6, R40).
  DESIGN CHOICE, safe: log entry 1. -/
  pending : List Cycle
  /-- The responses `Result(v)` produced so far, oldest first (rule R15). DEDUCED, safe: log
  entry 5. -/
  results : List Byte
deriving DecidableEq, Repr

/-- Why the machine stops. -/
inductive Fault where
  /-- Raised by `cmd` itself: `INIT` or `SEED` at `OPEN` = 1, `BYTE` or `FIN` at `OPEN` = 0 or at an
  `ACC` that holds no value (rules R10, R65). Safe: the spec defines no effect and demands a fault. -/
  | sequenceViolation (cmd : Instr)
  /-- Raised by any command presented after the violation of `cmd` was recorded and before a reset
  (rule R66). Safe: the spec gives such a command no defined result. -/
  | violationStands (cmd : Instr)
deriving DecidableEq, Repr

/-- Why a step has no meaning. -/
inductive Refusal where
  /-- Raised by an arm of `exec` that has no meaning yet; no arm does. Safe. -/
  | notModelled (mnemonic : String)
  /-- Raised by any command presented between power-up and the first reset, where the state is
  undefined (rules R74, R76; 93_implementation_defined.md U5 asks for a refusal). Safe. -/
  | beforeFirstReset
deriving DecidableEq, Repr

/-- The state right after reset (rule R18), with no input presented yet. -/
def State.reset : State where
  openFlag := false
  acc := none
  condition := .running
  pending := []
  results := []

end Sys2Proof.Machine
end

