-- ==== Sys2Proof/Machine/Ops.lean ====
section
/-! DEFINITION. The named operations the meanings are made of: writes of `ACC` and `OPEN`, the
response, the guards, raising and recording the one fault, and reset. -/

namespace Sys2Proof.Machine

/-- `ACC <- v` (rule R10). -/
def State.setAcc (v : Byte) (s : State) : State := { s with acc := some v }

/-- `ACC <- none`: the register ceases to hold a value (rule R10). -/
def State.clearAcc (s : State) : State := { s with acc := none }

/-- `OPEN <- v` (rule R11). -/
def State.setOpen (v : Bool) (s : State) : State := { s with openFlag := v }

/-- `emit Result(v)` (rule R15). -/
def State.emit (v : Byte) (s : State) : State := { s with results := s.results ++ [v] }

/-- The cycles still to come after the present one (rule R40). -/
def State.withPending (cs : List Cycle) (s : State) : State := { s with pending := cs }

/-- A reset edge: the reset values of `OPEN` and `ACC`, a recorded fault cleared, an open call
abandoned; responses already given stand, and later cycles still come (rules R66, R74, R75). -/
def State.applyReset (s : State) : State :=
  { s with
    openFlag := State.reset.openFlag
    acc := State.reset.acc
    condition := State.reset.condition }

/-- `raise SequenceViolation(cmd)`: no next state and no response (rule R65). There is no trap
entry: nothing is saved and nothing else changes (rule R69). -/
def raiseSequenceViolation (cmd : Instr) : Host.Outcome State Fault Refusal :=
  .fault (.sequenceViolation cmd)

/-- The fault marker is set; the offending command has had no effect (rules R66, R69). -/
def State.recordViolation (cmd : Instr) (s : State) : State := { s with condition := .violated cmd }

/-- Commands run only after a first reset (rule R76) and while no violation is recorded (rule R66). -/
def whenRunning (s : State) (go : Host.Outcome State Fault Refusal) :
    Host.Outcome State Fault Refusal :=
  match s.condition with
  | .running => go
  | .violated cmd => .fault (.violationStands cmd)
  | .unreset => .refused .beforeFirstReset

/-- The guard of every command: running, and in order by `OPEN` (rules R53, R65, R66). -/
def whenInOrder (cmd : Instr) (s : State) (go : Host.Outcome State Fault Refusal) :
    Host.Outcome State Fault Refusal :=
  whenRunning s (if orderAllows s.openFlag cmd then go else raiseSequenceViolation cmd)

/-- The read of `ACC` by `cmd`; reading it while it holds no value is a sequence violation
(rule R10). DEDUCED at `OPEN` = 1, safe: log entry 8. -/
def readAcc (cmd : Instr) (s : State) (go : Byte → Host.Outcome State Fault Refusal) :
    Host.Outcome State Fault Refusal :=
  match s.acc with
  | some a => go a
  | none => raiseSequenceViolation cmd

/-- A start command: load `ACC`, set `OPEN` (rules R43, R44). -/
def startCall (cmd : Instr) (v : Byte) (s : State) : Host.Outcome State Fault Refusal :=
  whenInOrder cmd s (.next ((s.setAcc v).setOpen (openAfter cmd)))

end Sys2Proof.Machine
end

