-- ==== Sys2Proof/Machine/Accumulate.lean ====
section
/-! DEFINITION. The accumulate command `BYTE` (algorithm step 2). -/

namespace Sys2Proof.Machine

/-- `BYTE b` (rule R46). -/
def execByte (b : Byte) (s : State) : Host.Outcome State Fault Refusal :=
  whenInOrder (.byte b) s (readAcc (.byte b) s fun a =>
    .next ((s.setAcc (foldByte a b)).setOpen (openAfter (.byte b))))

end Sys2Proof.Machine
end

