-- ==== Sys2Proof/Machine/Finalize.lean ====
section
/-! DEFINITION. The finish command `FIN` (algorithm step 3). -/

namespace Sys2Proof.Machine

/-- `FIN` (rule R50). -/
def execFin (s : State) : Host.Outcome State Fault Refusal :=
  whenInOrder .fin s (readAcc .fin s fun a =>
    .next (((s.emit (finalise a)).clearAcc).setOpen (openAfter .fin)))

end Sys2Proof.Machine
end

