-- ==== Sys2Proof/Machine/Start.lean ====
section
/-! DEFINITION. The start commands `INIT` and `SEED` (algorithm step 1). -/

namespace Sys2Proof.Machine

/-- `INIT` (rule R43). -/
def execInit (s : State) : Host.Outcome State Fault Refusal :=
  startCall .init initialValue s

/-- `SEED v` (rule R44). -/
def execSeed (v : Byte) (s : State) : Host.Outcome State Fault Refusal :=
  startCall (.seed v) (unfinalise v) s

end Sys2Proof.Machine
end

