-- ==== Sys2Proof/Machine/Port.lean ====
section
/-! DEFINITION. The pins of one copy of the block (rule R40): what a rising clock edge does, what the
response pins show, and the run of a host that goes on after a fault has been recorded. -/

namespace Sys2Proof.Machine

/-- The command word on the port (rules R33, R40). -/
def Cycle.word (c : Cycle) : CmdWord := packWord c.cmdOp c.cmdData

/-- The cycle in which the host presents the word `w` (rule R40). -/
def Cycle.present (w : CmdWord) : Cycle :=
  { rst := false, cmdValid := true, cmdOp := opField w, cmdData := dField w }

/-- A cycle with `cmd_valid` = 0 and no reset (rule R81). -/
def Cycle.idle : Cycle := { rst := false, cmdValid := false, cmdOp := 0, cmdData := 0 }

/-- A cycle with `rst` = 1 (rule R74). -/
def Cycle.reset : Cycle := { rst := true, cmdValid := false, cmdOp := 0, cmdData := 0 }

/-- One rising edge: reset wins over a presented command (rules R68, R74), a presented command is
decoded and executed (rule R40), and an idle cycle changes nothing (rule R81). -/
def clockEdge (c : Cycle) (s : State) : Host.Outcome State Fault Refusal :=
  if c.rst then .next s.applyReset
  else if c.cmdValid then exec (decode c.word) s
  else .next s

/-- One step: the coming cycle's edge. When the host presents nothing further the instance only
holds its state (rule R81). -/
def clockNext (s : State) : Host.Outcome State Fault Refusal :=
  match s.pending with
  | [] => .next s
  | c :: rest => clockEdge c (s.withPending rest)

/-- The response pins (rule R40). -/
structure PortOutputs where
  /-- `rsp_valid`. -/
  rspValid : Bool
  /-- `rsp_crc[7:0]`. -/
  rspCrc : Byte
deriving DecidableEq, Repr

/-- The response pins during the cycle `c`, from the state before its edge (rule R40). `anyByte` is
what `rsp_crc` carries while `rsp_valid` = 0: any value. No outputs are given where a command is
presented that has no defined result (rules R65, R66, R74). DEDUCED, safe: log entries 6 and 7. -/
def portOutputs (anyByte : Byte) (s : State) (c : Cycle) : Option PortOutputs :=
  if c.rst || !c.cmdValid then some { rspValid := false, rspCrc := anyByte }
  else if s.condition ≠ .running || !orderAllows s.openFlag (decode c.word) then none
  else
    match decode c.word, s.acc with
    | .init, _ => some { rspValid := false, rspCrc := anyByte }
    | .seed _, _ => some { rspValid := false, rspCrc := anyByte }
    | .byte _, some _ => some { rspValid := false, rspCrc := anyByte }
    | .byte _, none => none
    | .fin, some a => some { rspValid := true, rspCrc := finalise a }
    | .fin, none => none

/-- One edge as a host that goes on after a fault sees it: a sequence violation is recorded and
sticks until reset, and an edge with no defined result leaves the record as it is (rule R66). -/
def recordEdge (c : Cycle) (s : State) : State :=
  match clockEdge c s with
  | .next t => t
  | .fault (.sequenceViolation cmd) => s.recordViolation cmd
  | .fault (.violationStands _) => s
  | .refused _ => s

/-- The recorded run over a list of cycles (rules R53, R66). -/
def runCycles (cs : List Cycle) (s : State) : State := cs.foldl (fun t c => recordEdge c t) s

end Sys2Proof.Machine
end

