-- ==== Sys2Proof/Machine/Step.lean ====
section
/-! DEFINITION. One step of the machine, and the placing of one command where the next step takes it. -/

namespace Sys2Proof.Machine

/-- One step (rules R6, R40). -/
def step (s : State) : Host.Outcome State Fault Refusal := Sys2Proof.Machine.clockNext s

/-- The host presents the command word in the coming cycle, ahead of everything else it has yet to
present. A command is one 10-bit word, whatever number of bits a table row is given (rule R38). -/
def State.withFetchWord (s : State) (nbits w : Nat) : State :=
  s.withPending (Cycle.present (BitVec.ofNat 10 (w % 2 ^ nbits)) :: s.pending)

end Sys2Proof.Machine
end

