-- ==== Sys2Proof/Machine/Call.lean ====
section
/-! DEFINITION. The whole call: the function `calculate_crc8` (rule R52), the commands it is mapped to
(rule R42), and the execution of a list of commands. -/

namespace Sys2Proof.Machine

/-- `walk(A, data)`: the raw accumulator after folding `data` into `A`, element 0 first
(43_call.md section 1; rule R24). -/
def walk (a : Byte) : List Byte → Byte
  | [] => a
  | b :: rest => walk (foldByte a b) rest

/-- The raw accumulator a call starts from (rule R52). -/
def callStart (startValue : Byte) (isFirstCall : Bool) : Byte :=
  if isFirstCall then initialValue else unfinalise startValue

/-- `calculate_crc8(data, start_value, is_first_call)` (rule R52). -/
def crc8 (data : List Byte) (startValue : Byte) (isFirstCall : Bool) : Byte :=
  finalise (walk (callStart startValue isFirstCall) data)

/-- The start command of a call (rule R42). -/
def startCommand (startValue : Byte) (isFirstCall : Bool) : Instr :=
  if isFirstCall then .init else .seed startValue

/-- The command sequence of one call: start, one `BYTE` per element, `FIN` (rule R42). -/
def callCommands (data : List Byte) (startValue : Byte) (isFirstCall : Bool) : List Instr :=
  startCommand startValue isFirstCall :: (data.map Instr.byte ++ [.fin])

/-- The commands presented back to back, in their canonical words (rules R36, R77). -/
def presentAll (is : List Instr) : List Cycle := is.map fun i => Cycle.present (encode i)

/-- Commands executed one at a time in order, stopping at the first that has no next state
(rules R6, R16). -/
def execAll : List Instr → State → Host.Outcome State Fault Refusal
  | [], s => .next s
  | i :: rest, s =>
    match exec i s with
    | .next t => execAll rest t
    | .fault r => .fault r
    | .refused r => .refused r

/-- A chain of any number of continuing calls, one per segment, from the result `r` of the call
before: each call is seeded with the result of the one before it (rules R55, R78). -/
def chainCalls (r : Byte) : List (List Byte) → Byte
  | [] => r
  | d :: rest => chainCalls (crc8 d r false) rest

/-- Byte-at-a-time chaining: the chain that continues from the result `r`, one call per byte
(rule R61). -/
def byteChain (r : Byte) (data : List Byte) : Byte := chainCalls r (data.map fun b => [b])

end Sys2Proof.Machine
end

