-- ==== Sys2Proof/Machine/Asm.lean ====
section
/-! DEFINITION. The text of a command trace (rule R39) and the two pseudo-instructions (rule R41):
reading a line, expanding it to clock cycles and to command words, and printing a command. A text is
a list of characters; character codes are ASCII. DESIGN CHOICE where the rules leave the form open:
log entry 11. -/

namespace Sys2Proof.Machine

/-- One line of a trace (rules R39, R41). -/
inductive Line where
  /-- A blank line or a comment. -/
  | blank
  /-- `IDLE`: a cycle with `cmd_valid` = 0. -/
  | idle
  /-- One of the four commands. -/
  | command (i : Instr)
  /-- `CALL_FIRST <bytes>`. -/
  | callFirst (data : List Byte)
  /-- `CALL_NEXT <u8>, <bytes>`. -/
  | callNext (startValue : Byte) (data : List Byte)
deriving DecidableEq, Repr

/-- The commands a line stands for; `IDLE` stands for none (rules R39, R41, R42). -/
def Line.commands : Line → List Instr
  | .blank => []
  | .idle => []
  | .command i => [i]
  | .callFirst data => callCommands data 0x00 true
  | .callNext startValue data => callCommands data startValue false

/-- The command words a line assembles to; `INIT` and `FIN` have `d` = 0x00 (rule R39). -/
def Line.words (l : Line) : List CmdWord := l.commands.map encode

/-- The clock cycles a line stands for (rule R39). -/
def Line.cycles : Line → List Cycle
  | .idle => [Cycle.idle]
  | l => presentAll l.commands

/-- A word of text, a byte written in quotes, a string, or a comma. -/
inductive Token where
  | word (text : List Char)
  | quoted (b : Byte)
  | str (data : List Byte)
  | comma
deriving DecidableEq, Repr

/-- Where the reader of a line stands. -/
inductive LexMode where
  | between
  | inWord (text : List Char)
  | afterQuote
  | beforeQuote (b : Byte)
  | inString (data : List Byte)
  | inComment
deriving DecidableEq, Repr

/-- The byte of a character: its ASCII code (00_scope.md section 7). -/
def charByte (c : Char) : Byte := BitVec.ofNat 8 c.toNat

/-- Printable ASCII: codes 0x20 to 0x7E. -/
def isPrintable (c : Char) : Bool := 0x20 ≤ c.toNat && c.toNat ≤ 0x7E

/-- Whether a character belongs to a word: not a blank, `#`, a comma or a quote. -/
def isWordChar (c : Char) : Bool :=
  !(c.toNat == 0x20 || c.toNat == 0x09 || c.toNat == 0x23 || c.toNat == 0x2C || c.toNat == 0x27 ||
    c.toNat == 0x22)

/-- What a character between tokens begins; `#` starts a comment (rule R39). -/
def lexEnter (c : Char) : List Token × LexMode :=
  if c.toNat = 0x20 ∨ c.toNat = 0x09 then ([], .between)
  else if c.toNat = 0x23 then ([], .inComment)
  else if c.toNat = 0x2C then ([.comma], .between)
  else if c.toNat = 0x27 then ([], .afterQuote)
  else if c.toNat = 0x22 then ([], .inString [])
  else ([], .inWord [c])

/-- One line cut into tokens; none where a quote is left open or holds no ASCII character.
Tokens are not required to be parted by blanks: a quoted byte or a string may follow a word, a comma
or another quoted byte directly, so `BYTE'1'` and `CALL_FIRST '1''2'` are read as with blanks, and
blanks before and after the comma may be left out. DESIGN CHOICE, log entry 11: rule R41 says
"separated by spaces" and does not say whether a text without them is rejected. -/
def lex : LexMode → List Char → Option (List Token)
  | .between, [] => some []
  | .inWord text, [] => some [.word text]
  | .inComment, [] => some []
  | .afterQuote, [] => none
  | .beforeQuote _, [] => none
  | .inString _, [] => none
  | .between, c :: rest => (lex (lexEnter c).2 rest).map ((lexEnter c).1 ++ ·)
  | .inWord text, c :: rest =>
    if isWordChar c then lex (.inWord (text ++ [c])) rest
    else (lex (lexEnter c).2 rest).map (.word text :: (lexEnter c).1 ++ ·)
  | .afterQuote, c :: rest => if isPrintable c then lex (.beforeQuote (charByte c)) rest else none
  | .beforeQuote b, c :: rest =>
    if c.toNat = 0x27 then (lex .between rest).map (.quoted b :: ·) else none
  | .inString data, c :: rest =>
    if c.toNat = 0x22 then (lex .between rest).map (.str data :: ·)
    else if c.toNat < 0x80 then lex (.inString (data ++ [charByte c])) rest
    else none
  | .inComment, _ :: _ => some []

/-- The value of a decimal digit. -/
def decDigit (c : Char) : Option Nat :=
  if 0x30 ≤ c.toNat ∧ c.toNat ≤ 0x39 then some (c.toNat - 0x30) else none

/-- The value of a hexadecimal digit, in either case. -/
def hexDigit (c : Char) : Option Nat :=
  if 0x41 ≤ c.toNat ∧ c.toNat ≤ 0x46 then some (c.toNat - 0x41 + 10)
  else if 0x61 ≤ c.toNat ∧ c.toNat ≤ 0x66 then some (c.toNat - 0x61 + 10)
  else decDigit c

/-- A decimal number, read on from the value so far. -/
def decValue (value : Nat) : List Char → Option Nat
  | [] => some value
  | c :: rest => (decDigit c).bind fun d => decValue (10 * value + d) rest

/-- The `<u8>` a word spells: `0x` and two hexadecimal digits, or a decimal number 0 to 255
(rule R39). -/
def wordByte : List Char → Option Byte
  | [] => none
  | ['0', 'x', h, l] =>
    (hexDigit h).bind fun high => (hexDigit l).map fun low => BitVec.ofNat 8 (16 * high + low)
  | text => (decValue 0 text).bind fun v => if v < 256 then some (BitVec.ofNat 8 v) else none

/-- The `<u8>` a token spells (rule R39). -/
def Token.byte? : Token → Option Byte
  | .word text => wordByte text
  | .quoted b => some b
  | .str _ => none
  | .comma => none

/-- The `<bytes>` of a pseudo-instruction: a string, `[]`, or one or more `<u8>` (rule R41). -/
def parseBytes : List Token → Option (List Byte)
  | [] => none
  | [.str data] => some data
  | [.word ['[', ']']] => some []
  | tokens => tokens.mapM Token.byte?

/-- The line a list of tokens spells; mnemonics are in upper case (rules R39, R41). -/
def parseTokens : List Token → Option Line
  | [] => some .blank
  | [.word ['I', 'D', 'L', 'E']] => some .idle
  | [.word ['I', 'N', 'I', 'T']] => some (.command .init)
  | [.word ['F', 'I', 'N']] => some (.command .fin)
  | [.word ['S', 'E', 'E', 'D'], t] => t.byte?.map fun s => .command (.seed s)
  | [.word ['B', 'Y', 'T', 'E'], t] => t.byte?.map fun b => .command (.byte b)
  | .word ['C', 'A', 'L', 'L', '_', 'F', 'I', 'R', 'S', 'T'] :: tokens =>
    (parseBytes tokens).map Line.callFirst
  | .word ['C', 'A', 'L', 'L', '_', 'N', 'E', 'X', 'T'] :: t :: .comma :: tokens =>
    t.byte?.bind fun s => (parseBytes tokens).map (Line.callNext s)
  | _ => none

/-- The reader of one line; none where the text is no line of a trace (rule R39). -/
def parseLine (text : List Char) : Option Line := (lex .between text).bind parseTokens

/-- A text cut at its line ends, the character with code 0x0A; one command a line (rule R39).
DESIGN CHOICE, log entry 11: which character ends a line. -/
def splitLines : List Char → List (List Char)
  | [] => [[]]
  | c :: rest =>
    if c.toNat = 0x0A then [] :: splitLines rest
    else
      match splitLines rest with
      | [] => [[c]]
      | line :: lines => (c :: line) :: lines

/-- The reader of a trace; none where one of its lines is no line of a trace (rule R39). -/
def parseText (text : List Char) : Option (List Line) := (splitLines text).mapM parseLine

/-- The hexadecimal digit of a value below 16, in upper case. -/
def hexChar (n : Nat) : Char := Char.ofNat (if n < 10 then 0x30 + n else 0x41 + (n - 10))

/-- The printed form of a `<u8>`: `0x` and two hexadecimal digits (rule R39). -/
def printByte (b : Byte) : List Char :=
  ['0', 'x', hexChar (b.toNat / 16), hexChar (b.toNat % 16)]

/-- The printed form of a command (rule R39). -/
def printInstr : Instr → List Char
  | .init => ['I', 'N', 'I', 'T']
  | .seed s => ['S', 'E', 'E', 'D', ' '] ++ printByte s
  | .byte b => ['B', 'Y', 'T', 'E', ' '] ++ printByte b
  | .fin => ['F', 'I', 'N']

/-- The disassembler: any word prints as the command it decodes to (rule R36). -/
def disassemble (w : CmdWord) : List Char := printInstr (decode w)

end Sys2Proof.Machine
end

