-- ==== Sys2Proof/Machine/System.lean ====
section
/-! DEFINITION. `N_INST` copies of the block (rule R32): each has its own state and its own ports;
they share only the table, which never changes. `N_INST` is the length of the list. -/

namespace Sys2Proof.Machine

/-- The copies of the block in a system (rule R32). -/
abbrev System := List State

/-- A system right after every copy was reset (rules R3, R18). -/
def System.afterReset (nInst : Nat := Config.nInstDefault) : System :=
  List.replicate nInst State.reset

/-- One edge of copy `k`; an edge is given to one copy at a time, in any interleaving. -/
def System.edge (k : Nat) (c : Cycle) (sys : System) : System := sys.modify k (recordEdge c)

/-- A run of a system: edges of named copies in the order they come. -/
def System.run (es : List (Nat × Cycle)) (sys : System) : System :=
  es.foldl (fun t e => System.edge e.1 e.2 t) sys

end Sys2Proof.Machine
end

