-- ==== Sys2Proof/Safety.lean ====
section
/-! DEFINITION. What counts as a sound state, a complete run and a silent instance, in the terms the
statements use. -/

namespace Sys2Proof.Machine

/-- `ACC` holds a value exactly while a call is open (rule R10). -/
abbrev State.Coherent (s : State) : Prop := s.acc.isSome = s.openFlag

/-- What every state reached since a first reset satisfies (rules R10, R74). -/
abbrev State.Inv (s : State) : Prop := s.Coherent ∧ s.condition ≠ .unreset

/-- A run is complete when the host presents nothing further, no call is open and no violation is
recorded (rule R53). -/
abbrev State.Complete (s : State) : Prop :=
  s.pending = [] ∧ s.openFlag = false ∧ s.condition = .running

/-- Two copies in the same condition of (`OPEN`, `ACC`), with the same fault record (rule R12). -/
abbrev State.SamePair (s t : State) : Prop :=
  s.openFlag = t.openFlag ∧ s.acc = t.acc ∧ s.condition = t.condition

/-- A cycle in which neither a command nor reset is presented (rule R81). -/
abbrev Cycle.isIdle (c : Cycle) : Bool := !c.rst && !c.cmdValid

/-- One call as the host means it: its data, its `start_value` and its `is_first_call` (rule R42). -/
structure CallArgs where
  data : List Byte
  startValue : Byte
  isFirstCall : Bool
deriving DecidableEq, Repr

/-- The command sequence of a call (rule R42). -/
abbrev CallArgs.commands (c : CallArgs) : List Instr :=
  callCommands c.data c.startValue c.isFirstCall

/-- The result of a call (rule R52). -/
abbrev CallArgs.result (c : CallArgs) : Byte := crc8 c.data c.startValue c.isFirstCall

end Sys2Proof.Machine
end

