-- ==== Sys2Proof/Certificates/Slice0/Polynomials.lean ====
section
/-! DEFINITION. Bytes and messages as polynomials over GF(2), the vocabulary of the statements about
rules R21 and R47. No definition of the machine uses it. -/

namespace Sys2Proof.Claims

/-- A `u8` read as a polynomial whose coefficient of x^k is bit `k` (rule R21). -/
noncomputable def bytePoly (v : Byte) : Polynomial (ZMod 2) :=
  ∑ k ∈ Finset.range 8, if v.getLsbD k then Polynomial.X ^ k else 0

/-- x^8 + x^4 + x^3 + x^2 + 1 (rules R3, R21). -/
noncomputable def generator : Polynomial (ZMod 2) :=
  Polynomial.X ^ 8 + Polynomial.X ^ 4 + Polynomial.X ^ 3 + Polynomial.X ^ 2 + 1

/-- A message read as one polynomial, the first byte's bit 7 its highest coefficient (rule R47). -/
noncomputable def messagePoly : List Byte → Polynomial (ZMod 2)
  | [] => 0
  | b :: rest => bytePoly b * Polynomial.X ^ (8 * rest.length) + messagePoly rest

end Sys2Proof.Claims
end

