-- ==== Sys2Proof/Certificates/Slice0/Obligations.lean ====
section
/-! DEFINITION. The statements for the provers. Each docstring names the rule it comes from. -/

open Sys2Proof Sys2Proof.Machine

/-! ### Encoding -/

/-- Rule R34: the field `op` selects the command and the field `d` is its operand; mask and match;
what the two bits of `op` mean. -/
def Obligations.OpFieldSelectsCommand : Prop :=
  (∀ d : Byte, decode (0b00#2 ++ d) = .init ∧ decode (0b01#2 ++ d) = .seed d ∧
    decode (0b10#2 ++ d) = .byte d ∧ decode (0b11#2 ++ d) = .fin) ∧
  (∀ w : CmdWord,
    (w &&& 0x300#10 = 0x000#10 → decode w = .init) ∧
    (w &&& 0x300#10 = 0x100#10 → decode w = .seed (w.extractLsb' 0 8)) ∧
    (w &&& 0x300#10 = 0x200#10 → decode w = .byte (w.extractLsb' 0 8)) ∧
    (w &&& 0x300#10 = 0x300#10 → decode w = .fin)) ∧
  (∀ w : CmdWord, w.getLsbD 9 = false ↔ decode w = .init ∨ ∃ s, decode w = .seed s) ∧
  (∀ w : CmdWord, w.getLsbD 9 = true → (w.getLsbD 8 = true ↔ decode w = .fin)) ∧
  (∀ (s : Byte) (isFirstCall : Bool),
    (encode (startCommand s isFirstCall)).getLsbD 8 = !isFirstCall)

/-- Rule R36: `d` is ignored in `INIT` and `FIN`; the canonical words; what a disassembled
non-canonical word assembles to. -/
def Obligations.IgnoredFieldSelectsSameCommand : Prop :=
  (∀ d : Byte, decode (0b00#2 ++ d) = .init ∧ decode (0b11#2 ++ d) = .fin) ∧
  encode .init = 0x000#10 ∧ encode .fin = 0x300#10 ∧
  (∀ d : Byte, disassemble (0b00#2 ++ d) = ['I', 'N', 'I', 'T'] ∧
    disassemble (0b11#2 ++ d) = ['F', 'I', 'N']) ∧
  (∀ w : CmdWord, parseLine (disassemble w) = some (.command (decode w))) ∧
  (∀ d : Byte, d ≠ 0x00#8 →
    encode (decode (0b00#2 ++ d)) ≠ 0b00#2 ++ d ∧ encode (decode (0b11#2 ++ d)) ≠ 0b11#2 ++ d)

/-- A few words written out from the format of rule R33 and the map of rule R34. -/
def Obligations.WrittenOutWordsDecode : Prop :=
  decode 0b0000000000#10 = .init ∧ decode 0b0101001011#10 = .seed 0x4B ∧
  decode 0b1000110001#10 = .byte 0x31 ∧ decode 0b1100000000#10 = .fin

/-- Every command with every operand comes back from its word, from the table's numbering of that
word, and from the port that carries it. -/
def Obligations.DecodeEncodeRoundTrip : Prop :=
  ∀ i : Instr, i.wf = true →
    decode (encode i) = i ∧
    decodeTableWord 16 (encode i).toNat = some i ∧
    decode (Cycle.present (encode i)).word = i

/-- A number is decoded exactly when it is a 10-bit word; any other is rejected by name. -/
def Obligations.OnlyTenBitWordsDecode : Prop :=
  ∀ w : Nat,
    (w < 1024 → decodeNat w = .ok (decode (BitVec.ofNat 10 w))) ∧
    (1024 ≤ w → decodeNat w = .error .notACommandWord)

/-- A printed command is read back as that command. -/
def Obligations.PrintedCommandReadsBack : Prop :=
  ∀ i : Instr, parseLine (printInstr i) = some (.command i)

/-- A pseudo-instruction of n bytes is n + 2 command words, and run between calls it yields exactly
one `Result`, that of the call it stands for. -/
def Obligations.PseudoInstructionIsOneCall : Prop :=
  ∀ (data : List Byte) (v : Byte),
    (Line.callFirst data).words =
      0x000#10 :: (data.map fun b => (0b10#2 ++ b : BitVec 10)) ++ [0x300#10] ∧
    (Line.callNext v data).words =
      (0b01#2 ++ v : BitVec 10) :: (data.map fun b => (0b10#2 ++ b : BitVec 10)) ++ [0x300#10] ∧
    (Line.callFirst data).words.length = data.length + 2 ∧
    (Line.callNext v data).words.length = data.length + 2 ∧
    ∀ s : State, s.condition = .running → s.openFlag = false →
      execAll (Line.callFirst data).commands s =
        .next { s with acc := none, results := s.results ++ [crc8 data 0x00 true] } ∧
      execAll (Line.callNext v data).commands s =
        .next { s with acc := none, results := s.results ++ [crc8 data v false] }

/-! ### The four commands -/

/-- Rule R43: `INIT`. -/
def Obligations.InitStartsFirstCall : Prop :=
  (∀ s : State, s.condition = .running → s.openFlag = false →
    exec .init s = .next { s with acc := some 0xFF#8, openFlag := true }) ∧
  (∀ s : State, s.condition = .running → s.openFlag = true →
    exec .init s = .fault (.sequenceViolation .init)) ∧
  (∀ d : Byte, decode (0b00#2 ++ d) = .init) ∧ encode .init = 0x000#10 ∧
  (∀ s : State, s.condition = .running → s.openFlag = false →
    execAll [.init, .fin] s = .next { s with acc := none, results := s.results ++ [0x00#8] }) ∧
  (∃ t, exec .init State.reset = .next t)

/-- Rule R44: `SEED s`. -/
def Obligations.SeedStartsContinuingCall : Prop :=
  (∀ (v : Byte) (s : State), s.condition = .running → s.openFlag = false →
    exec (.seed v) s = .next { s with acc := some (0xFF#8 ^^^ v), openFlag := true }) ∧
  (∀ (v : Byte) (s : State), s.condition = .running → s.openFlag = true →
    exec (.seed v) s = .fault (.sequenceViolation (.seed v))) ∧
  (∀ v : Byte, decode (0b01#2 ++ v) = .seed v ∧ encode (.seed v) = 0b01#2 ++ v) ∧
  (∀ s : State, exec (.seed 0x00#8) s = exec .init s ∨
    (s.condition = .running ∧ s.openFlag = true)) ∧
  Function.Bijective (fun v : Byte => 0xFF#8 ^^^ v) ∧
  (∀ (v : Byte) (s : State), s.condition = .running → s.openFlag = false →
    execAll [.seed v, .fin] s = .next { s with acc := none, results := s.results ++ [v] }) ∧
  (∀ v : Byte, ∃ t, exec (.seed v) State.reset = .next t)

/-- Rule R46: `BYTE b`. -/
def Obligations.ByteFoldsOneByte : Prop :=
  (∀ (a b : Byte) (s : State), s.condition = .running → s.openFlag = true → s.acc = some a →
    exec (.byte b) s = .next { s with acc := some (table (a ^^^ b)) }) ∧
  (∀ (b : Byte) (s : State), s.condition = .running → s.openFlag = false →
    exec (.byte b) s = .fault (.sequenceViolation (.byte b))) ∧
  (∀ b : Byte, decode (0b10#2 ++ b) = .byte b ∧ encode (.byte b) = 0b10#2 ++ b) ∧
  (∀ a : Byte, foldByte a a = 0x00#8 ∧ foldByte a 0x00#8 = table a) ∧
  (∀ b : Byte, Function.Bijective fun a => foldByte a b) ∧
  (∀ a : Byte, Function.Bijective fun b => foldByte a b) ∧
  foldByte (foldByte 0xFF#8 0x31#8) 0x32#8 = 0xBC#8 ∧
  foldByte (foldByte 0xFF#8 0x32#8) 0x31#8 = 0x4F#8

/-- Rule R50: `FIN`. -/
def Obligations.FinReturnsResultAndClosesCall : Prop :=
  (∀ (a : Byte) (s : State), s.condition = .running → s.openFlag = true → s.acc = some a →
    exec .fin s =
      .next { s with acc := none, openFlag := false, results := s.results ++ [a ^^^ 0xFF#8] }) ∧
  (∀ s : State, s.condition = .running → s.openFlag = false →
    exec .fin s = .fault (.sequenceViolation .fin)) ∧
  (∀ d : Byte, decode (0b11#2 ++ d) = .fin) ∧ encode .fin = 0x300#10 ∧
  Function.Bijective (fun a : Byte => a ^^^ 0xFF#8) ∧
  (∀ (s t : State) (b : Byte), exec .fin s = .next t →
    exec (.byte b) t = .fault (.sequenceViolation (.byte b)) ∧
    exec .fin t = .fault (.sequenceViolation .fin)) ∧
  (∀ (v : Byte) (s : State), s.condition = .running → s.openFlag = false →
    execAll [.init, .fin] s = .next { s with acc := none, results := s.results ++ [0x00#8] } ∧
    execAll [.seed v, .fin] s = .next { s with acc := none, results := s.results ++ [v] }) ∧
  exec .fin State.reset = .fault (.sequenceViolation .fin)

/-- Rule R45: `SEED` undoes `FIN`, in the machine and whatever the value of the constant. -/
def Obligations.SeedUndoesFin : Prop :=
  (∀ (a : Byte) (s : State), s.condition = .running → s.openFlag = true → s.acc = some a →
    execAll [.fin, .seed (a ^^^ xorValue)] s =
      .next { s with results := s.results ++ [a ^^^ xorValue] }) ∧
  (∀ k a : Byte, k ^^^ (a ^^^ k) = a)

/-- Rule R64: every command in order completes and has the effect its rule gives (the table of
rule R53); in a call `ACC` holds a value. -/
def Obligations.CommandInOrderCompletes : Prop :=
  ∀ (i : Instr) (s : State), s.condition = .running → s.Coherent →
    (match i with
      | .init => s.openFlag = false
      | .seed _ => s.openFlag = false
      | .byte _ => s.openFlag = true
      | .fin => s.openFlag = true) →
    ∃ t, exec i s = .next t ∧ t.condition = .running ∧ t.Coherent ∧ t.pending = s.pending ∧
      (match i with
        | .init => t = { s with acc := some 0xFF#8, openFlag := true }
        | .seed v => t = { s with acc := some (0xFF#8 ^^^ v), openFlag := true }
        | .byte b => ∃ a, s.acc = some a ∧ t = { s with acc := some (table (a ^^^ b)) }
        | .fin => ∃ a, s.acc = some a ∧
            t = { s with acc := none, openFlag := false, results := s.results ++ [a ^^^ 0xFF#8] })

/-- Rule R65 for all four commands, and only then: a running instance stops with a sequence
violation of the presented command exactly where `OPEN` forbids it. -/
def Obligations.CommandOutOfOrderIsSequenceViolation : Prop :=
  ∀ (i : Instr) (s : State), s.condition = .running → s.Coherent →
    ((match i with
      | .init => s.openFlag = true
      | .seed _ => s.openFlag = true
      | .byte _ => s.openFlag = false
      | .fin => s.openFlag = false) ↔
      exec i s = .fault (.sequenceViolation i)) ∧
    ((∃ t, exec i s = .next t) ∨ exec i s = .fault (.sequenceViolation i))

/-- Rule R10 and the notation of 00_scope.md: a read of `ACC` while it holds no value is a sequence
violation, never a default value. Only states no run reaches have `OPEN` = 1 here. -/
def Obligations.ReadOfEmptyAccumulatorFaults : Prop :=
  ∀ (b : Byte) (s : State), s.condition = .running → s.acc = none →
    exec (.byte b) s = .fault (.sequenceViolation (.byte b)) ∧
    exec .fin s = .fault (.sequenceViolation .fin)

/-- The frame of every command that completes: the inputs still to come, the fault record, every
address of the TABLE space (a constant no state holds), and each register and record the command's
rule does not name. -/
def Obligations.CommandFrame : Prop :=
  ∀ (i : Instr) (s t : State), exec i s = .next t →
    t.pending = s.pending ∧ t.condition = s.condition ∧
    (match i with
      | .init => t.results = s.results
      | .seed _ => t.results = s.results
      | .byte _ => t.results = s.results ∧ t.openFlag = s.openFlag
      | .fin => ∃ v, t.results = s.results ++ [v])

/-- Rule R11: which value of `OPEN` each command requires and which it leaves; reset clears it. -/
def Obligations.OpenFlagFollowsCommands : Prop :=
  (∀ (i : Instr) (s t : State), exec i s = .next t →
    match i with
      | .init => s.openFlag = false ∧ t.openFlag = true
      | .seed _ => s.openFlag = false ∧ t.openFlag = true
      | .byte _ => s.openFlag = true ∧ t.openFlag = true
      | .fin => s.openFlag = true ∧ t.openFlag = false) ∧
  (∀ (c : Cycle) (s t : State), c.rst = true → clockEdge c s = .next t → t.openFlag = false)

/-- Rule R15: exactly the edge that executes `FIN` gives a response, it is `ACC ^ XOR_VALUE`, the
pins show it in that cycle, and nothing of it is held afterwards. The record of responses, the free
value of `rsp_crc` and the cycles with no pins are the model's form: log entries 5, 6 and 7. -/
def Obligations.OnlyFinResponds : Prop :=
  ∀ (anyByte : Byte) (c : Cycle) (s t : State), clockEdge c s = .next t →
    ∃ o, portOutputs anyByte s c = some o ∧
      (o.rspValid = true ↔ c.rst = false ∧ c.cmdValid = true ∧ decode c.word = .fin) ∧
      (o.rspValid = true → ∃ a, s.acc = some a ∧ o.rspCrc = a ^^^ 0xFF#8 ∧
        t.results = s.results ++ [a ^^^ 0xFF#8] ∧ t.acc = none ∧ t.openFlag = false) ∧
      (o.rspValid = false → t.results = s.results)

/-! ### The table -/

/-- Rule R21: each entry is the result of the eight rounds of the procedure. -/
def Obligations.TableIsDefinedByEightRounds : Prop :=
  ∀ i : Byte,
    table i = Nat.iterate (fun r : Byte =>
      if r.getLsbD 7 = true then (r <<< 1) ^^^ 0x1D#8 else r <<< 1) 8 i

/-- Each entry, read as a polynomial, is a remainder. The reading of bytes as polynomials is the
spec's general knowledge (G2), PRESUMED: log entry 15. -/
def Obligations.TableEntryIsPolynomialRemainder : Prop :=
  ∀ i : Byte,
    Claims.bytePoly (table i) =
      Polynomial.modByMonic (Claims.bytePoly i * Polynomial.X ^ 8) Claims.generator

/-- Rule R22: the listing is the procedure's result, with every check the rule lists. -/
def Obligations.TableListingPassesItsChecks : Prop :=
  (∀ i : Byte, tableListing[i.toNat]? = some (bitwiseEntry i) ∧ table i = bitwiseEntry i) ∧
  tableListing.length = 256 ∧
  table 0x00 = 0x00 ∧ table 0x01 = 0x1D ∧ table 0x80 = 0x26 ∧ table 0xFF = 0xC4 ∧
  table 0x02 = 0x3A ∧ table 0x04 = 0x74 ∧ table 0x08 = 0xE8 ∧ table 0x10 = 0xCD ∧
  table 0x20 = 0x87 ∧ table 0x40 = 0x13 ∧
  (∀ i j : Byte, table (i ^^^ j) = table i ^^^ table j) ∧
  Function.Bijective table ∧
  tableListing.foldl (fun x y => x ^^^ y) 0x00#8 = 0x00#8 ∧
  (tableListing.map BitVec.toNat).sum = 32640 ∧
  crc8 [0x31, 0x32, 0x33, 0x34, 0x35, 0x36, 0x37, 0x38, 0x39] 0x00 true = 0x4B

/-- Rule R23: the TABLE space is 0x00 to 0xFF, every address populated; `BYTE` reads the entry at
`ACC ^ b` and no access is out of range; the map is in its canonical form. -/
def Obligations.TableSpaceIsPopulatedAndByteReadsIt : Prop :=
  (∀ a : Nat, a < 256 ↔ (memRead a).isSome = true) ∧
  (∀ i : Byte, memRead i.toNat = some (table i)) ∧
  (∀ (a b : Byte) (s t : State), s.acc = some a → exec (.byte b) s = .next t →
    t.acc = memRead (a ^^^ b).toNat) ∧
  Memory.wf tableSpace = true

/-- Rule R47: with the listed table, one `BYTE` step is eight bitwise rounds, for every accumulator
and every byte. -/
def Obligations.ByteStepIsEightBitwiseRounds : Prop :=
  (∀ (a b : Byte) (s : State), s.condition = .running → s.openFlag = true → s.acc = some a →
    exec (.byte b) s = .next { s with acc := some (Nat.iterate (fun r : Byte =>
      if r.getLsbD 7 = true then (r <<< 1) ^^^ 0x1D#8 else r <<< 1) 8 (a ^^^ b)) }) ∧
  (∀ x y : Byte, table (x ^^^ y) = Nat.iterate (fun r : Byte =>
      if r.getLsbD 7 = true then (r <<< 1) ^^^ 0x1D#8 else r <<< 1) 8 (x ^^^ y))

/-- One `BYTE` step is a polynomial division, and the raw accumulator after a whole message is the
remainder of the message's polynomial. The reading of bytes as polynomials is the spec's general
knowledge (G2), PRESUMED: log entry 15. -/
def Obligations.TableWalkIsPolynomialDivision : Prop :=
  (∀ (a b : Byte) (s t : State), s.acc = some a → exec (.byte b) s = .next t →
    ∃ a', t.acc = some a' ∧ Claims.bytePoly a' =
      Polynomial.modByMonic ((Claims.bytePoly a + Claims.bytePoly b) * Polynomial.X ^ 8)
        Claims.generator) ∧
  (∀ a b : Byte, Claims.bytePoly (foldByte a b) =
    Polynomial.modByMonic ((Claims.bytePoly a + Claims.bytePoly b) * Polynomial.X ^ 8)
      Claims.generator) ∧
  (∀ (a : Byte) (m : List Byte), Claims.bytePoly (walk a m) =
    Polynomial.modByMonic
      (Claims.bytePoly a * Polynomial.X ^ (8 * m.length) +
        Claims.messagePoly m * Polynomial.X ^ 8)
      Claims.generator)

/-! ### Whole calls -/

/-- Rule R52: the command sequence of a call, run from a state with `OPEN` = 0, emits exactly one
response, the value of `calculate_crc8`, raises nothing and leaves (`OPEN` = 0, `ACC` = none). -/
def Obligations.WholeCallEmitsItsCrc : Prop :=
  (∀ (data : List Byte) (v : Byte), crc8 data v true = walk 0xFF#8 data ^^^ 0xFF#8) ∧
  (∀ (data : List Byte) (v : Byte), crc8 data v false = walk (0xFF#8 ^^^ v) data ^^^ 0xFF#8) ∧
  (∀ (data : List Byte) (v : Byte) (first : Bool) (s : State),
    s.condition = .running → s.openFlag = false →
    execAll (callCommands data v first) s =
      .next { s with acc := none, results := s.results ++ [crc8 data v first] })

/-- The same call, through the port: presented back to back it takes exactly n + 2 steps and leaves
the cycles behind it untouched (rules R42, R77, R80). The list of pending cycles and the step as one
clock edge are the model's form: log entries 1 and 9. -/
def Obligations.CallOfNBytesTakesNPlusTwoSteps : Prop :=
  ∀ (data : List Byte) (v : Byte) (first : Bool) (after : List Cycle) (s : State),
    s.condition = .running → s.openFlag = false →
    s.pending = presentAll (callCommands data v first) ++ after →
    core.run (data.length + 2) s =
      .next { s with
        acc := none, pending := after, results := s.results ++ [crc8 data v first] }

/-- Rule R55: chaining correctness, at every split, from a first call and from a continuing one, and
for a message cut into any number of segments. -/
def Obligations.ChainingEqualsOneCall : Prop :=
  (∀ (d1 d2 : List Byte) (x y : Byte),
    crc8 d2 (crc8 d1 x true) false = crc8 (d1 ++ d2) y true) ∧
  (∀ (d1 d2 : List Byte) (v : Byte),
    crc8 d2 (crc8 d1 v false) false = crc8 (d1 ++ d2) v false) ∧
  (∀ (d : List Byte) (ds : List (List Byte)) (x y : Byte),
    chainCalls (crc8 d x true) ds = crc8 (d ++ ds.flatten) y true) ∧
  (∀ (ds : List (List Byte)) (v : Byte), chainCalls v ds = crc8 ds.flatten v false)

/-- Rules R57 and R58: a call over empty data returns 0x00 as a first call and its own
`start_value` as a continuing one. -/
def Obligations.EmptyCallsReturnTheirStart : Prop :=
  (∀ x : Byte, crc8 [] x true = initialValue ^^^ xorValue ∧ crc8 [] x true = 0x00#8) ∧
  (∀ v : Byte, crc8 [] v false = v) ∧
  (∀ s : State, s.condition = .running → s.openFlag = false →
    execAll [.init, .fin] s = .next { s with acc := none, results := s.results ++ [0x00#8] } ∧
    ∀ v : Byte, execAll [.seed v, .fin] s =
      .next { s with acc := none, results := s.results ++ [v] })

/-- Rule R61: one call per byte ends with the result of one call over the whole message, and every
intermediate result is the checksum of the bytes so far. -/
def Obligations.ByteAtATimeChainingEqualsOneCall : Prop :=
  ∀ (b : Byte) (m : List Byte) (x y : Byte),
    byteChain (crc8 [b] x true) m = crc8 (b :: m) y true ∧
    ∀ k : Nat, byteChain (crc8 [b] x true) (m.take k) = crc8 (b :: m.take k) y true

/-- Rule R62: a message followed by its own checksum leaves the residue, whatever the message, in
one call and in a chain of any number of calls: the chain over the message gives the checksum, the
chain over message and checksum gives 0x3B, and its last call's raw accumulator before `FIN` is
`TABLE[XOR_VALUE]`. -/
def Obligations.AppendedChecksumLeavesResidue : Prop :=
  ∀ (m : List Byte) (x y : Byte),
    walk initialValue (m ++ [crc8 m x true]) = table xorValue ∧ table xorValue = 0xC4#8 ∧
    crc8 (m ++ [crc8 m x true]) y true = 0x3B#8 ∧
    ∀ (d : List Byte) (ds : List (List Byte)),
      (d ++ ds.flatten = m → chainCalls (crc8 d x true) ds = crc8 m x true) ∧
      (d ++ ds.flatten = m ++ [crc8 m x true] → chainCalls (crc8 d x true) ds = 0x3B#8) ∧
      (∀ last : List Byte, d ++ ds.flatten ++ last = m ++ [crc8 m x true] →
        walk (unfinalise (chainCalls (crc8 d x true) ds)) last = table xorValue)

/-- The command sequences that go through and end with no call open are exactly the concatenations
of whole calls, such a run emits one result per call, each that of its call alone, and it is such a
sequence exactly when the run of the machine over it is complete (43_call.md sections 2 and 3). The
pending cycles and the record of responses are the model's form: log entries 1 and 5. -/
def Obligations.OrderedRunsAreConcatenationsOfCalls : Prop :=
  (∀ (is : List Instr) (s : State), s.condition = .running → s.openFlag = false →
    ((∃ t, execAll is s = .next t ∧ t.openFlag = false) ↔
      ∃ calls : List CallArgs, is = calls.flatMap CallArgs.commands)) ∧
  (∀ (calls : List CallArgs) (s t : State), s.condition = .running → s.openFlag = false →
    execAll (calls.flatMap CallArgs.commands) s = .next t →
    t.results = s.results ++ calls.map CallArgs.result) ∧
  (∀ is : List Instr,
    traceWf false is = true ↔ ∃ calls : List CallArgs, is = calls.flatMap CallArgs.commands) ∧
  (∀ (is : List Instr) (s : State), s.condition = .running → s.openFlag = false →
    s.pending = presentAll is →
    ((∃ t, core.run is.length s = .next t ∧ t.Complete) ↔
      ∃ calls : List CallArgs, is = calls.flatMap CallArgs.commands))

/-- Rule R13: after `FIN` the copy is in the state it has after reset, whatever the call was. -/
def Obligations.NothingSurvivesFin : Prop :=
  ∀ s t : State, exec .fin s = .next t →
    t = { State.reset with pending := s.pending, results := t.results }

/-- Rule R12: two copies in the same (`OPEN`, `ACC`) condition behave identically on every sequence
of cycles: the same responses, the same condition after it. -/
def Obligations.SamePairBehavesIdentically : Prop :=
  ∀ (cs : List Cycle) (s t : State), s.SamePair t →
    (runCycles cs s).SamePair (runCycles cs t) ∧
    ∃ emitted : List Byte,
      (runCycles cs s).results = s.results ++ emitted ∧
      (runCycles cs t).results = t.results ++ emitted

/-! ### Reset, idle cycles, faults -/

/-- Rule R18: the reset values; the only commands in order then do not read `ACC`. -/
def Obligations.ResetLeavesResetValues : Prop :=
  State.reset.openFlag = false ∧ State.reset.acc = none ∧
  initialValue = 0xFF#8 ∧ xorValue = 0xFF#8 ∧ (∀ i : Byte, table i = bitwiseEntry i) ∧
  (∀ (anyByte : Byte) (c : Cycle), c.cmdValid = false →
    (portOutputs anyByte State.reset c).map PortOutputs.rspValid = some false) ∧
  (∀ (i : Instr) (a : Option Byte),
    (∃ t, exec i { State.reset with acc := a } = .next t) ↔
      i = .init ∨ ∃ v, i = .seed v) ∧
  (∀ a : Option Byte, exec .init { State.reset with acc := a } = exec .init State.reset ∧
    ∀ v, exec (.seed v) { State.reset with acc := a } = exec (.seed v) State.reset)

/-- The state after reset satisfies the invariant of `StepKeepsInvariant`. -/
def Obligations.ResetSatisfiesInvariant : Prop := State.reset.Inv

/-- Rule R74: a reset edge, whatever is presented with it and whatever the state; held for any
number of cycles it is one reset. -/
def Obligations.ResetEdgeWinsAndRestoresResetState : Prop :=
  (∀ (c : Cycle) (s : State), c.rst = true →
    clockEdge c s = .next { s with openFlag := false, acc := none, condition := .running } ∧
    ∀ anyByte : Byte, portOutputs anyByte s c = some ⟨false, anyByte⟩) ∧
  (∀ (cs : List Cycle) (c : Cycle) (s : State), c.rst = true → (∀ d ∈ cs, d.rst = true) →
    runCycles (c :: cs) s = runCycles [c] s)

/-- Between power-up and the first reset the state is undefined; that a presented command is then
refused is the model's form of it, asked for by 93_implementation_defined.md U5 (log entry 4). -/
def Obligations.CommandBeforeFirstResetIsRefused : Prop :=
  (∀ (i : Instr) (s : State), s.condition = .unreset → exec i s = .refused .beforeFirstReset) ∧
  (∀ (c : Cycle) (s : State), s.condition = .unreset → c.rst = false →
    recordEdge c s = s) ∧
  (∀ (c : Cycle) (s : State), s.condition = .unreset → c.rst = true →
    ∃ t, clockEdge c s = .next t ∧ t.Inv)

/-- Rule R75: reset in an open call abandons it with no `Result`, whatever was folded. -/
def Obligations.ResetAbandonsOpenCall : Prop :=
  ∀ (data : List Byte) (c : Cycle) (s : State), s.condition = .running → s.openFlag = true →
    s.Coherent → c.rst = true →
    runCycles (presentAll (data.map Instr.byte) ++ [c]) s =
      { s with openFlag := false, acc := none }

/-- Rule R66: once a violation is raised the copy is faulted, and stays as it then is, with no
further response, over every list of cycles without reset; a later command has no next state; reset
clears the fault; responses given before stand. How the fault is recorded is log entry 3. -/
def Obligations.ViolationSticksUntilReset : Prop :=
  (∀ (cmd : Instr) (c : Cycle) (cs : List Cycle) (s : State),
    clockEdge c s = .fault (.sequenceViolation cmd) → (∀ d ∈ cs, d.rst = false) →
    runCycles (c :: cs) s = s.recordViolation cmd) ∧
  (∀ (cmd : Instr) (cs : List Cycle) (s : State), (∀ c ∈ cs, c.rst = false) →
    runCycles cs (s.recordViolation cmd) = s.recordViolation cmd) ∧
  (∀ (cmd i : Instr) (s t : State), exec i (s.recordViolation cmd) ≠ .next t) ∧
  (∀ (cmd : Instr) (c : Cycle) (s : State), c.rst = true →
    clockEdge c (s.recordViolation cmd) =
      .next { s with openFlag := false, acc := none, condition := .running })

/-- A command on a copy whose violation is recorded stops with a fault that names the first offender.
That it stops under a name of its own, and which command the name holds, is the model's form
(DEDUCED, log entry 3). -/
def Obligations.LaterCommandFaultNamesFirstOffender : Prop :=
  (∀ (cmd i : Instr) (s : State), s.condition = .violated cmd →
    exec i s = .fault (.violationStands cmd)) ∧
  (∀ (cmd : Instr) (c d : Cycle) (s : State),
    clockEdge c s = .fault (.sequenceViolation cmd) → d.rst = false → d.cmdValid = true →
    clockEdge d (recordEdge c s) = .fault (.violationStands cmd))

/-- The fault is precise: it is recorded for the offending command, which has had no effect.
How it is recorded is log entry 3. -/
def Obligations.ViolationIsPrecise : Prop :=
  ∀ (c : Cycle) (s : State) (cmd : Instr), clockEdge c s = .fault (.sequenceViolation cmd) →
    cmd = decode c.word ∧ recordEdge c s = { s with condition := .violated cmd }

/-- Rule R81: an idle cycle is the identity, and idle cycles anywhere alter no result. -/
def Obligations.IdleCyclesChangeNothing : Prop :=
  (∀ (c : Cycle) (s : State), c.isIdle = true →
    clockEdge c s = .next s ∧
    ∀ anyByte : Byte, (portOutputs anyByte s c).map PortOutputs.rspValid = some false) ∧
  (∀ (cs : List Cycle) (s : State),
    runCycles cs s = runCycles (cs.filter fun c => !c.isIdle) s)

/-! ### Steps -/

/-- A step is the edge of the coming cycle, whatever that cycle is, on the state less that cycle: a
presented command is run (R40), a reset applied (R74), an idle cycle passes (R81); with nothing
presented the step holds the state; a placed word is what the next step runs. The list of pending
cycles is the model's form: log entries 1 and 2. -/
def Obligations.StepRunsThePresentedCommand : Prop :=
  (∀ (c : Cycle) (rest : List Cycle) (s : State), s.pending = c :: rest →
    step s = clockEdge c { s with pending := rest }) ∧
  (∀ (c : Cycle) (rest : List Cycle) (s : State), s.pending = c :: rest → c.rst = true →
    step s = .next
      { s with openFlag := false, acc := none, condition := .running, pending := rest }) ∧
  (∀ (c : Cycle) (rest : List Cycle) (s : State), s.pending = c :: rest → c.isIdle = true →
    step s = .next { s with pending := rest }) ∧
  (∀ (i : Instr) (rest : List Cycle) (s : State), i.wf = true →
    step { s with pending := Cycle.present (encode i) :: rest } =
      exec i { s with pending := rest }) ∧
  (∀ (c : Cycle) (rest : List Cycle) (s : State), s.pending = c :: rest → c.rst = false →
    c.cmdValid = true → step s = exec (decode c.word) { s with pending := rest }) ∧
  (∀ s : State, s.pending = [] → step s = .next s) ∧
  (∀ (w : CmdWord) (s : State), step (s.withFetchWord 16 w.toNat) = exec (decode w) s)

/-- Every step keeps the invariant: `ACC` holds a value exactly while `OPEN` = 1, and no copy falls
back behind its first reset. -/
def Obligations.StepKeepsInvariant : Prop :=
  ∀ s t : State, s.Inv → step s = .next t → t.Inv

/-- Responses once given stand: no step and no recorded edge takes one back. The record of responses
is the model's form: log entry 5. -/
def Obligations.ResponsesAreNeverRevoked : Prop :=
  (∀ s t : State, step s = .next t → s.results <+: t.results) ∧
  (∀ (cs : List Cycle) (s : State), s.results <+: (runCycles cs s).results)

/-- Whatever edges the other copies get, each copy ends as it does alone; copies reset together all
start from the reset state (20_memory.md section 6). The system as a list of copies clocked one at a
time in any interleaving is the model's form (DEDUCED, log entry 10). -/
def Obligations.CopiesAreIndependent : Prop :=
  (∀ (es : List (Nat × Cycle)) (sys : System) (k : Nat),
    (System.run es sys)[k]? =
      (sys[k]?).map (runCycles ((es.filter fun e => e.1 == k).map fun e => e.2))) ∧
  (∀ (es : List (Nat × Cycle)) (nInst k : Nat), k < nInst →
    (System.run es (System.afterReset nInst))[k]? =
      some (runCycles ((es.filter fun e => e.1 == k).map fun e => e.2) State.reset))
end

