-- ==== Sys2Proof/Laws/State.lean ====
section
/-! SUPPORT. One lemma per field of State per named update, and per field of State.reset. -/

namespace Sys2Proof.Machine

@[simp] theorem State.setAcc_openFlag (v : Byte) (s : State) : (s.setAcc v).openFlag = s.openFlag := rfl
@[simp] theorem State.setAcc_acc (v : Byte) (s : State) : (s.setAcc v).acc = some v := rfl
@[simp] theorem State.setAcc_condition (v : Byte) (s : State) : (s.setAcc v).condition = s.condition := rfl
@[simp] theorem State.setAcc_pending (v : Byte) (s : State) : (s.setAcc v).pending = s.pending := rfl
@[simp] theorem State.setAcc_results (v : Byte) (s : State) : (s.setAcc v).results = s.results := rfl

@[simp] theorem State.clearAcc_openFlag (s : State) : (s.clearAcc).openFlag = s.openFlag := rfl
@[simp] theorem State.clearAcc_acc (s : State) : (s.clearAcc).acc = none := rfl
@[simp] theorem State.clearAcc_condition (s : State) : (s.clearAcc).condition = s.condition := rfl
@[simp] theorem State.clearAcc_pending (s : State) : (s.clearAcc).pending = s.pending := rfl
@[simp] theorem State.clearAcc_results (s : State) : (s.clearAcc).results = s.results := rfl

@[simp] theorem State.setOpen_openFlag (v : Bool) (s : State) : (s.setOpen v).openFlag = v := rfl
@[simp] theorem State.setOpen_acc (v : Bool) (s : State) : (s.setOpen v).acc = s.acc := rfl
@[simp] theorem State.setOpen_condition (v : Bool) (s : State) : (s.setOpen v).condition = s.condition := rfl
@[simp] theorem State.setOpen_pending (v : Bool) (s : State) : (s.setOpen v).pending = s.pending := rfl
@[simp] theorem State.setOpen_results (v : Bool) (s : State) : (s.setOpen v).results = s.results := rfl

@[simp] theorem State.emit_openFlag (v : Byte) (s : State) : (s.emit v).openFlag = s.openFlag := rfl
@[simp] theorem State.emit_acc (v : Byte) (s : State) : (s.emit v).acc = s.acc := rfl
@[simp] theorem State.emit_condition (v : Byte) (s : State) : (s.emit v).condition = s.condition := rfl
@[simp] theorem State.emit_pending (v : Byte) (s : State) : (s.emit v).pending = s.pending := rfl
@[simp] theorem State.emit_results (v : Byte) (s : State) : (s.emit v).results = s.results ++ [v] := rfl

@[simp] theorem State.withPending_openFlag (cs : List Cycle) (s : State) : (s.withPending cs).openFlag = s.openFlag := rfl
@[simp] theorem State.withPending_acc (cs : List Cycle) (s : State) : (s.withPending cs).acc = s.acc := rfl
@[simp] theorem State.withPending_condition (cs : List Cycle) (s : State) : (s.withPending cs).condition = s.condition := rfl
@[simp] theorem State.withPending_pending (cs : List Cycle) (s : State) : (s.withPending cs).pending = cs := rfl
@[simp] theorem State.withPending_results (cs : List Cycle) (s : State) : (s.withPending cs).results = s.results := rfl

@[simp] theorem State.applyReset_openFlag (s : State) : (s.applyReset).openFlag = false := rfl
@[simp] theorem State.applyReset_acc (s : State) : (s.applyReset).acc = none := rfl
@[simp] theorem State.applyReset_condition (s : State) : (s.applyReset).condition = .running := rfl
@[simp] theorem State.applyReset_pending (s : State) : (s.applyReset).pending = s.pending := rfl
@[simp] theorem State.applyReset_results (s : State) : (s.applyReset).results = s.results := rfl

@[simp] theorem State.recordViolation_openFlag (cmd : Instr) (s : State) : (s.recordViolation cmd).openFlag = s.openFlag := rfl
@[simp] theorem State.recordViolation_acc (cmd : Instr) (s : State) : (s.recordViolation cmd).acc = s.acc := rfl
@[simp] theorem State.recordViolation_condition (cmd : Instr) (s : State) : (s.recordViolation cmd).condition = .violated cmd := rfl
@[simp] theorem State.recordViolation_pending (cmd : Instr) (s : State) : (s.recordViolation cmd).pending = s.pending := rfl
@[simp] theorem State.recordViolation_results (cmd : Instr) (s : State) : (s.recordViolation cmd).results = s.results := rfl

@[simp] theorem State.reset_openFlag : State.reset.openFlag = false := rfl
@[simp] theorem State.reset_acc : State.reset.acc = none := rfl
@[simp] theorem State.reset_condition : State.reset.condition = .running := rfl
@[simp] theorem State.reset_pending : State.reset.pending = [] := rfl
@[simp] theorem State.reset_results : State.reset.results = [] := rfl

end Sys2Proof.Machine
end

