-- ==== Sys2Proof/Laws/Call.lean ====
section
/-! SUPPORT. The small lemmas of the whole call's functions and of the recorded run: one per
constructor of the list they fold over, and what an edge of each outcome records. -/

namespace Sys2Proof.Machine

@[simp] theorem walk_nil (a : Byte) : walk a [] = a := rfl
@[simp] theorem walk_cons (a b : Byte) (rest : List Byte) :
    walk a (b :: rest) = walk (foldByte a b) rest := rfl

/-- Folding a concatenation is folding its parts one after the other. -/
theorem walk_append (a : Byte) (d1 d2 : List Byte) : walk a (d1 ++ d2) = walk (walk a d1) d2 := by
  induction d1 generalizing a with
  | nil => rfl
  | cons b rest ih => exact ih (foldByte a b)

@[simp] theorem chainCalls_nil (r : Byte) : chainCalls r [] = r := rfl
@[simp] theorem chainCalls_cons (r : Byte) (d : List Byte) (rest : List (List Byte)) :
    chainCalls r (d :: rest) = chainCalls (crc8 d r false) rest := rfl

@[simp] theorem execAll_nil (s : State) : execAll [] s = .next s := rfl

/-- The first command's next state is what the rest runs from. -/
theorem execAll_cons_of_next {i : Instr} {s t : State} (rest : List Instr)
    (h : exec i s = .next t) : execAll (i :: rest) s = execAll rest t := by
  simp [execAll, h]

@[simp] theorem runCycles_nil (s : State) : runCycles [] s = s := rfl
@[simp] theorem runCycles_cons (c : Cycle) (cs : List Cycle) (s : State) :
    runCycles (c :: cs) s = runCycles cs (recordEdge c s) := rfl

/-- An edge that completes records its next state. -/
theorem recordEdge_of_next {c : Cycle} {s t : State} (h : clockEdge c s = .next t) :
    recordEdge c s = t := by
  simp [recordEdge, h]

/-- An edge that is a sequence violation records the offender and nothing else. -/
theorem recordEdge_of_violation {c : Cycle} {s : State} {cmd : Instr}
    (h : clockEdge c s = .fault (.sequenceViolation cmd)) :
    recordEdge c s = s.recordViolation cmd := by
  simp [recordEdge, h]

end Sys2Proof.Machine
end

