-- ==== Sys2Proof/Laws/Ops.lean ====
section
/-! SUPPORT. For each shared operation one lemma that says everything a next state it answers can be,
and for `exec` and one edge the inversion the proofs cite. -/

namespace Sys2Proof.Machine

/-- `whenRunning` lets through exactly what it guards, on a running copy. -/
theorem whenRunning_eq_next {s t : State} {go : Host.Outcome State Fault Refusal}
    (h : whenRunning s go = .next t) : s.condition = .running ∧ go = .next t := by
  unfold whenRunning at h
  split at h <;> simp_all

/-- On a running copy the guard is transparent. -/
@[simp] theorem whenRunning_of_running {s : State} {go : Host.Outcome State Fault Refusal}
    (h : s.condition = .running) : whenRunning s go = go := by
  simp [whenRunning, h]

/-- `whenInOrder` lets through exactly what it guards, running and in order. -/
theorem whenInOrder_eq_next {cmd : Instr} {s t : State} {go : Host.Outcome State Fault Refusal}
    (h : whenInOrder cmd s go = .next t) :
    s.condition = .running ∧ s.openFlag = openRequired cmd ∧ go = .next t := by
  obtain ⟨hr, h⟩ := whenRunning_eq_next h
  split at h
  · exact ⟨hr, by simpa [orderAllows] using ‹orderAllows _ _ = true›, h⟩
  · simp [raiseSequenceViolation] at h

/-- `readAcc` goes on only from an accumulator that holds a value. -/
theorem readAcc_eq_next {cmd : Instr} {s t : State} {go : Byte → Host.Outcome State Fault Refusal}
    (h : readAcc cmd s go = .next t) : ∃ a, s.acc = some a ∧ go a = .next t := by
  unfold readAcc at h
  split at h
  · exact ⟨_, ‹_›, h⟩
  · simp [raiseSequenceViolation] at h

/-- A start command that completes loaded `ACC` and set `OPEN` as its rule says. -/
theorem startCall_eq_next {cmd : Instr} {v : Byte} {s t : State}
    (h : startCall cmd v s = .next t) :
    s.condition = .running ∧ s.openFlag = openRequired cmd ∧
      t = (s.setAcc v).setOpen (openAfter cmd) := by
  obtain ⟨hr, ho, h⟩ := whenInOrder_eq_next h
  exact ⟨hr, ho, by simpa using h.symm⟩

/-- Everything a command that completes can have done. -/
theorem exec_cases {i : Instr} {s t : State} (h : exec i s = .next t) :
    s.condition = .running ∧ s.openFlag = openRequired i ∧
      ((i = .init ∧ t = (s.setAcc initialValue).setOpen true) ∨
       (∃ v, i = .seed v ∧ t = (s.setAcc (unfinalise v)).setOpen true) ∨
       (∃ b a, i = .byte b ∧ s.acc = some a ∧ t = (s.setAcc (foldByte a b)).setOpen true) ∨
       (∃ a, i = .fin ∧ s.acc = some a ∧ t = ((s.emit (finalise a)).clearAcc).setOpen false)) := by
  cases i with
  | init =>
    obtain ⟨hr, ho, rfl⟩ := startCall_eq_next h
    exact ⟨hr, ho, .inl ⟨rfl, rfl⟩⟩
  | seed v =>
    obtain ⟨hr, ho, rfl⟩ := startCall_eq_next h
    exact ⟨hr, ho, .inr (.inl ⟨v, rfl, rfl⟩)⟩
  | byte b =>
    obtain ⟨hr, ho, h⟩ := whenInOrder_eq_next h
    obtain ⟨a, ha, h⟩ := readAcc_eq_next h
    exact ⟨hr, ho, .inr (.inr (.inl ⟨b, a, rfl, ha, by simpa [openAfter] using h.symm⟩))⟩
  | fin =>
    obtain ⟨hr, ho, h⟩ := whenInOrder_eq_next h
    obtain ⟨a, ha, h⟩ := readAcc_eq_next h
    exact ⟨hr, ho, .inr (.inr (.inr ⟨a, rfl, ha, by simpa [openAfter] using h.symm⟩))⟩

/-- Everything an edge that completes can have been: a reset, a command, an idle cycle. -/
theorem clockEdge_cases {c : Cycle} {s t : State} (h : clockEdge c s = .next t) :
    (c.rst = true ∧ t = s.applyReset) ∨
    (c.rst = false ∧ c.cmdValid = true ∧ exec (decode c.word) s = .next t) ∨
    (c.rst = false ∧ c.cmdValid = false ∧ t = s) := by
  unfold clockEdge at h
  split at h
  · exact .inl ⟨‹_›, by simpa using h.symm⟩
  · split at h
    · exact .inr (.inl ⟨by simpa using ‹¬c.rst = true›, ‹_›, h⟩)
    · exact .inr (.inr ⟨by simpa using ‹¬c.rst = true›, by simpa using ‹¬c.cmdValid = true›,
        by simpa using h.symm⟩)

/-- Everything a step that completes can have been: nothing presented, or one edge. -/
theorem step_cases {s t : State} (h : step s = .next t) :
    (s.pending = [] ∧ t = s) ∨
    (∃ c rest, s.pending = c :: rest ∧ clockEdge c (s.withPending rest) = .next t) := by
  unfold step clockNext at h
  split at h
  · exact .inl ⟨‹_›, by simpa using h.symm⟩
  · exact .inr ⟨_, _, ‹_›, h⟩

end Sys2Proof.Machine
end

