-- ==== Sys2Proof/Laws/PerInstr.lean ====
section
/-! SUPPORT. Statements made for every command, one lemma per constructor. -/

namespace Sys2Proof.Laws.OpMatch

/-- The word the opcode map's column "match" gives a command (rule R34). -/
def matchWord : Instr → CmdWord
  | .init => 0x000
  | .seed _ => 0x100
  | .byte _ => 0x200
  | .fin => 0x300

/-- A command's canonical word agrees with its match under the map's mask 0x300 (rule R34). -/
def Statement (i : Instr) : Prop := encode i &&& 0x300#10 = matchWord i

theorem init : Statement .init := by unfold Statement; decide

theorem seed (s : Byte) : Statement (.seed s) := by
  unfold Statement; revert s; decide

theorem byte (b : Byte) : Statement (.byte b) := by
  unfold Statement; revert b; decide

theorem fin : Statement .fin := by unfold Statement; decide

end Sys2Proof.Laws.OpMatch
end

