-- ==== Sys2Proof/Laws/Table.lean ====
section
/-! SUPPORT. The form of the address map. No operation of the machine writes memory, so the form is
shown once, of the map itself. -/

namespace Sys2Proof.Machine

/-- Numbering the entries of any listing from `n` on gives strictly rising addresses. -/
theorem Memory.wf_numbered (entries : List Byte) (n : Nat) :
    Memory.wf ((entries.zipIdx n).map fun cell => (cell.2, cell.1)) = true := by
  induction entries generalizing n with
  | nil => rfl
  | cons e rest ih =>
    cases rest with
    | nil => rfl
    | cons e' rest =>
      have := ih (n + 1)
      simp only [List.zipIdx_cons, List.map_cons] at this ⊢
      simp [Memory.wf, this]

/-- The address map is in its canonical form: addresses strictly rising. -/
theorem tableSpace_rising : Memory.wf tableSpace = true := Memory.wf_numbered tableListing 0

/-- There is one cell per address of the TABLE space. -/
theorem tableSpace_length : tableSpace.length = Config.tableSize := by
  simp only [tableSpace, List.length_map, List.length_zipIdx, tableListing_length]

end Sys2Proof.Machine
end

