-- ==== Sys2Proof/Tests/Slice0.lean ====
section
/-! SUPPORT. Tests on single steps, decoding, the table and the text form, with expected values taken
from spec/95_test_vectors.md and the rules; and for each statement with hypotheses a witness that
meets them, clause by clause. -/

namespace Sys2Proof.Tests

open Sys2Proof.Machine

/-! ### Small states -/

/-- A copy in a call whose raw accumulator is `a`. -/
def inCall (a : Byte) : State := { State.reset with openFlag := true, acc := some a }

/-- A copy whose violation of `BYTE 0x31` is recorded. -/
def faulted : State := { State.reset with condition := .violated (.byte 0x31) }

/-- A copy never reset; its registers' values are read by nothing. -/
def unreset : State := { State.reset with condition := .unreset }

/-- `OPEN` = 1 with no value in `ACC`: a state no run reaches. -/
def emptyCall : State := { State.reset with openFlag := true }

/-! ### Well-formedness checks -/

/-- R33: 0x400 does not fit a command word. -/
theorem test_word_too_wide : wordWf 0x400 = false ∧ wordWf 0x3FF = true := by decide

/-- D-SEQ: the ill-formed traces, one for each way a command can be out of order, and the two that
stop inside a call. -/
theorem test_ill_formed_traces :
    traceWf false [.byte 0x31] = false ∧ traceWf false [.fin] = false ∧
    traceWf false [.init, .init] = false ∧ traceWf false [.init, .seed 0x00] = false ∧
    traceWf false [.seed 0x10, .init] = false ∧ traceWf false [.init, .fin, .fin] = false ∧
    traceWf false [.init] = false ∧ traceWf false [.init, .byte 0x31] = false := by decide

/-- D-SEQ: the empty trace and whole calls are well formed. -/
theorem test_well_formed_traces :
    traceWf false [] = true ∧ traceWf false [.init, .fin] = true ∧
    traceWf false [.init, .byte 0x31, .fin, .seed 0x6C, .fin] = true := by decide

/-- R37: no single command is ill formed. -/
theorem test_every_command_well_formed (i : Instr) : i.wf = true := by cases i <;> rfl

/-! ### Decoding: words written out bit by bit from R33 and R34 -/

/-- D-ENC: 0x000 and 0x0FF are `INIT`. -/
theorem test_decode_init :
    decode 0b0000000000#10 = .init ∧ decode 0b0011111111#10 = .init := by decide

/-- D-ENC: 0x14B is `SEED 0x4B`, 0x1FF is `SEED 0xFF`. -/
theorem test_decode_seed :
    decode 0b0101001011#10 = .seed 0x4B ∧ decode 0b0111111111#10 = .seed 0xFF := by decide

/-- D-ENC: 0x231 is `BYTE 0x31`, 0x200 is `BYTE 0x00`. -/
theorem test_decode_byte :
    decode 0b1000110001#10 = .byte 0x31 ∧ decode 0b1000000000#10 = .byte 0x00 := by decide

/-- D-ENC: 0x300 and 0x3FF are `FIN`. -/
theorem test_decode_fin :
    decode 0b1100000000#10 = .fin ∧ decode 0b1111111111#10 = .fin := by decide

/-- The table's numbering: the match of each row, and a number that is no command word. -/
theorem test_decode_table_words :
    decodeTableWord 16 0x000 = some .init ∧ decodeTableWord 16 0x100 = some (.seed 0x00) ∧
    decodeTableWord 16 0x200 = some (.byte 0x00) ∧ decodeTableWord 16 0x300 = some .fin ∧
    decodeTableWord 16 0x400 = none := by decide

/-! ### One step of each command -/

/-- D-INIT: the non-canonical 0x0AA from reset gives (1, 0xFF). -/
theorem test_init_from_reset :
    step (State.reset.withFetchWord 16 0x0AA) = .next (inCall 0xFF) := rfl

/-- D-INIT: 0x000 in a call is a sequence violation. -/
theorem test_init_in_call :
    step ((inCall 0x93).withFetchWord 16 0x000) = .fault (.sequenceViolation .init) := rfl

/-- D-SEED: `SEED 0x43` gives (1, 0xBC). -/
theorem test_seed_from_reset :
    step (State.reset.withFetchWord 16 0x143) = .next (inCall 0xBC) := rfl

/-- D-SEED: `SEED 0x00` in a call is a sequence violation. -/
theorem test_seed_in_call :
    step ((inCall 0xFF).withFetchWord 16 0x100) = .fault (.sequenceViolation (.seed 0x00)) := rfl

/-- D-BYTE: from (1, 0xFF), `BYTE 0x31` gives (1, 0x93). -/
theorem test_byte_in_call :
    step ((inCall 0xFF).withFetchWord 16 0x231) = .next (inCall 0x93) := rfl

/-- D-BYTE: `BYTE 0x31` with no call open is a sequence violation. -/
theorem test_byte_from_reset :
    step (State.reset.withFetchWord 16 0x231) = .fault (.sequenceViolation (.byte 0x31)) := rfl

/-- D-FIN: from (1, 0x93), the non-canonical 0x355 gives Result(0x6C) and (0, none). -/
theorem test_fin_in_call :
    step ((inCall 0x93).withFetchWord 16 0x355) =
      .next { State.reset with results := [0x6C] } := rfl

/-- D-FIN: 0x300 directly after reset is a sequence violation. -/
theorem test_fin_from_reset :
    step (State.reset.withFetchWord 16 0x300) = .fault (.sequenceViolation .fin) := rfl

/-! ### Pins, reset, faults -/

/-- D-RESET: reset with `FIN` presented in the same cycle at (1, 0xB4): (0, none), no response. -/
theorem test_reset_wins_over_fin :
    clockEdge { Cycle.present 0x300#10 with rst := true } (inCall 0xB4) = .next State.reset ∧
    portOutputs 0xA5 (inCall 0xB4) { Cycle.present 0x300#10 with rst := true } =
      some ⟨false, 0xA5⟩ := ⟨rfl, rfl⟩

/-- R40: in the `FIN` cycle at (1, 0xB4) the pins show 0x4B. -/
theorem test_pins_show_result :
    portOutputs 0xA5 (inCall 0xB4) (Cycle.present 0x300#10) = some ⟨true, 0x4B⟩ := rfl

/-- R66: a start command on a faulted copy has no result; D-RESET: reset clears the fault. -/
theorem test_fault_sticks_and_reset_clears :
    exec .init faulted = .fault (.violationStands (.byte 0x31)) ∧
    clockEdge Cycle.reset faulted = .next State.reset := ⟨rfl, rfl⟩

/-- R81: with nothing presented a copy in a call holds its state. -/
theorem test_idle_holds : step (inCall 0x93) = .next (inCall 0x93) := rfl

/-- R32: an `INIT` on copy 1 of two leaves copy 0 in its reset state. -/
theorem test_copies_are_separate :
    System.run [(1, Cycle.present 0x000#10)] (System.afterReset 2) =
      [State.reset, inCall 0xFF] := rfl

/-- R74: a pending reset is applied by the step and taken off. -/
theorem test_step_applies_pending_reset :
    step ((inCall 0x93).withPending [Cycle.reset, Cycle.idle]) =
      .next (State.reset.withPending [Cycle.idle]) := rfl

/-! ### The table and whole calls -/

/-- D-TABLE: two entries worked out by hand there, and the entry at 0xCE of D-BYTE. -/
theorem test_table_entries : table 0x01 = 0x1D ∧ table 0x80 = 0x26 ∧ table 0xCE = 0x93 := by decide

/-- R59, S4: the conformance vector. -/
theorem test_check :
    crc8 [0x31, 0x32, 0x33, 0x34, 0x35, 0x36, 0x37, 0x38, 0x39] 0x00 true = check ∧
    check = 0x4B := by decide

/-- R60, S5: the magic check, a first call over the one byte `CHECK`. -/
theorem test_magic_check : crc8 [check] 0x00 true = magicCheck ∧ magicCheck = 0xE7 := by decide

/-- D-CALL: "hello", and an arbitrary seed 0x12 over "AB". -/
theorem test_calls :
    crc8 [0x68, 0x65, 0x6C, 0x6C, 0x6F] 0x00 true = 0xA9 ∧
    crc8 [0x41, 0x42] 0x12 false = 0x1D := by decide

/-! ### Text -/

/-- R41: `CALL_FIRST "12"` is the four words 0x000, 0x231, 0x232, 0x300. -/
theorem test_call_first_words :
    (parseLine ['C', 'A', 'L', 'L', '_', 'F', 'I', 'R', 'S', 'T', ' ', '\"', '1', '2', '\"']).map
      Line.words = some [0x000#10, 0x231#10, 0x232#10, 0x300#10] := by decide

/-- R39: `BYTE '1'` is `BYTE 0x31`, a comment ends the line, a decimal number is a `<u8>`. -/
theorem test_operand_spellings :
    parseLine ['B', 'Y', 'T', 'E', ' ', '\'', '1', '\'', ' ', '#', 'x'] =
      some (.command (.byte 0x31)) ∧
    parseLine ['S', 'E', 'E', 'D', ' ', '1', '6'] = some (.command (.seed 0x10)) ∧
    parseLine ['S', 'E', 'E', 'D', ' ', '2', '5', '6'] = none := by decide

/-- R39 and log entry 11: one command a line, blank lines allowed; a quoted byte needs no blank. -/
theorem test_text_of_two_lines :
    parseText ['I', 'N', 'I', 'T', '\n', '\n', 'B', 'Y', 'T', 'E', '\'', '1', '\''] =
      some [.command .init, .blank, .command (.byte 0x31)] := by decide

/-- R39: a line `IDLE` is one idle cycle and no command word. -/
theorem test_idle_line :
    (parseLine ['I', 'D', 'L', 'E']).map Line.words = some [] ∧
    (parseLine ['I', 'D', 'L', 'E']).map Line.cycles = some [Cycle.idle] := by decide

/-! ### Witnesses: the hypotheses of the statements are met -/

theorem witness_OpFieldSelectsCommand :
    0x0AA#10 &&& 0x300#10 = 0x000#10 ∧ 0x1FF#10 &&& 0x300#10 = 0x100#10 ∧
    0x200#10 &&& 0x300#10 = 0x200#10 ∧ 0x3FF#10 &&& 0x300#10 = 0x300#10 ∧
    (0x200#10).getLsbD 9 = true := by decide

theorem witness_IgnoredFieldSelectsSameCommand : 0xAA#8 ≠ 0x00#8 := by decide

theorem witness_DecodeEncodeRoundTrip :
    Instr.init.wf = true ∧ (Instr.seed 0xFF).wf = true ∧ (Instr.byte 0x00).wf = true ∧
    Instr.fin.wf = true := by decide

theorem witness_OnlyTenBitWordsDecode : 1023 < 1024 ∧ 1024 ≤ 1024 := by decide

/-- The premises "running and `OPEN` = 0" and "running and `OPEN` = 1" of the command statements,
of the call statements and of the reset statements. -/
theorem witness_between_and_in_call :
    (State.reset.condition = .running ∧ State.reset.openFlag = false) ∧
    ((inCall 0x93).condition = .running ∧ (inCall 0x93).openFlag = true ∧
      (inCall 0x93).acc = some 0x93 ∧ (inCall 0x93).Coherent) := by decide

theorem witness_InitStartsFirstCall :
    (State.reset.condition = .running ∧ State.reset.openFlag = false) ∧
    ((inCall 0x00).condition = .running ∧ (inCall 0x00).openFlag = true) := by decide

theorem witness_SeedStartsContinuingCall :
    (State.reset.condition = .running ∧ State.reset.openFlag = false) ∧
    ((inCall 0xFF).condition = .running ∧ (inCall 0xFF).openFlag = true) := by decide

theorem witness_ByteFoldsOneByte :
    ((inCall 0xFF).condition = .running ∧ (inCall 0xFF).openFlag = true ∧
      (inCall 0xFF).acc = some 0xFF) ∧
    (State.reset.condition = .running ∧ State.reset.openFlag = false) := by decide

theorem witness_FinReturnsResultAndClosesCall :
    ((inCall 0xB4).condition = .running ∧ (inCall 0xB4).openFlag = true ∧
      (inCall 0xB4).acc = some 0xB4) ∧
    (State.reset.condition = .running ∧ State.reset.openFlag = false) ∧
    ∃ t, exec .fin (inCall 0xB4) = .next t :=
  ⟨by decide, by decide, _, rfl⟩

theorem witness_SeedUndoesFin :
    (inCall 0x00).condition = .running ∧ (inCall 0x00).openFlag = true ∧
    (inCall 0x00).acc = some 0x00 := by decide

theorem witness_PseudoInstructionIsOneCall :
    State.reset.condition = .running ∧ State.reset.openFlag = false := by decide

theorem witness_CommandInOrderCompletes :
    State.reset.condition = .running ∧ State.reset.Coherent ∧ State.reset.openFlag = false ∧
    (inCall 0xFF).condition = .running ∧ (inCall 0xFF).Coherent ∧
    (inCall 0xFF).openFlag = true := by decide

theorem witness_CommandOutOfOrderIsSequenceViolation :
    State.reset.condition = .running ∧ State.reset.Coherent ∧
    (inCall 0x00).condition = .running ∧ (inCall 0x00).Coherent := by decide

theorem witness_ReadOfEmptyAccumulatorFaults :
    (emptyCall.condition = .running ∧ emptyCall.acc = none ∧ emptyCall.openFlag = true) ∧
    (State.reset.condition = .running ∧ State.reset.acc = none) := by decide

/-- A next state for each of the four commands. -/
theorem witness_CommandFrame :
    (∃ t, exec .init State.reset = .next t) ∧ (∃ t, exec (.seed 0xFF) State.reset = .next t) ∧
    (∃ t, exec (.byte 0x00) (inCall 0x00) = .next t) ∧
    (∃ t, exec .fin (inCall 0xFF) = .next t) :=
  ⟨⟨_, rfl⟩, ⟨_, rfl⟩, ⟨_, rfl⟩, ⟨_, rfl⟩⟩

theorem witness_OpenFlagFollowsCommands :
    (∃ t, exec .init State.reset = .next t) ∧ (∃ t, exec (.seed 0x00) State.reset = .next t) ∧
    (∃ t, exec (.byte 0xFF) (inCall 0xFF) = .next t) ∧
    (∃ t, exec .fin (inCall 0x00) = .next t) ∧
    Cycle.reset.rst = true ∧ (∃ t, clockEdge Cycle.reset (inCall 0x00) = .next t) :=
  ⟨⟨_, rfl⟩, ⟨_, rfl⟩, ⟨_, rfl⟩, ⟨_, rfl⟩, rfl, ⟨_, rfl⟩⟩

/-- An edge that responds, one that does not, and an idle one. -/
theorem witness_OnlyFinResponds :
    (∃ t, clockEdge (Cycle.present 0x3FF#10) (inCall 0x00) = .next t) ∧
    (∃ t, clockEdge (Cycle.present 0x000#10) State.reset = .next t) ∧
    (∃ t, clockEdge Cycle.idle (inCall 0x00) = .next t) :=
  ⟨⟨_, rfl⟩, ⟨_, rfl⟩, ⟨_, rfl⟩⟩

theorem witness_TableSpaceIsPopulatedAndByteReadsIt :
    (inCall 0xFF).acc = some 0xFF ∧ (∃ t, exec (.byte 0x00) (inCall 0xFF) = .next t) ∧
    255 < 256 := ⟨rfl, ⟨_, rfl⟩, by decide⟩

theorem witness_TableWalkIsPolynomialDivision :
    (inCall 0xFF).acc = some 0xFF ∧ ∃ t, exec (.byte 0xFF) (inCall 0xFF) = .next t :=
  ⟨rfl, _, rfl⟩

theorem witness_ByteStepIsEightBitwiseRounds :
    (inCall 0x00).condition = .running ∧ (inCall 0x00).openFlag = true ∧
    (inCall 0x00).acc = some 0x00 := by decide

theorem witness_WholeCallEmitsItsCrc :
    State.reset.condition = .running ∧ State.reset.openFlag = false := by decide

theorem witness_CallOfNBytesTakesNPlusTwoSteps :
    let s := State.reset.withPending (presentAll (callCommands [0x31] 0x00 true) ++ [Cycle.idle])
    s.condition = .running ∧ s.openFlag = false ∧
    s.pending = presentAll (callCommands [0x31] 0x00 true) ++ [Cycle.idle] := by decide

theorem witness_EmptyCallsReturnTheirStart :
    State.reset.condition = .running ∧ State.reset.openFlag = false := by decide

/-- P4's message in three segments, its checksum 0x37 in a segment of its own and in the last call. -/
theorem witness_AppendedChecksumLeavesResidue :
    let m : List Byte := [0xF2, 0x01, 0x83]
    crc8 m 0x00 true = 0x37 ∧
    [0xF2] ++ ([[0x01], [], [0x83]] : List (List Byte)).flatten = m ∧
    [] ++ ([[0xF2, 0x01], [0x83], [0x37]] : List (List Byte)).flatten =
      m ++ [crc8 m 0x00 true] ∧
    [0xF2] ++ ([[0x01]] : List (List Byte)).flatten ++ [0x83, 0x37] = m ++ [crc8 m 0x00 true] := by
  decide

theorem witness_OrderedRunsAreConcatenationsOfCalls :
    State.reset.condition = .running ∧ State.reset.openFlag = false ∧
    ∃ t, execAll ([⟨[0x31], 0x00, true⟩, ⟨[], 0x6C, false⟩].flatMap CallArgs.commands)
      State.reset = .next t := ⟨rfl, rfl, _, rfl⟩

theorem witness_OrderedRunsAreConcatenationsOfCalls_run :
    let s := State.reset.withPending (presentAll [.init, .fin])
    s.condition = .running ∧ s.openFlag = false ∧ s.pending = presentAll [.init, .fin] := by decide

theorem witness_NothingSurvivesFin : ∃ t, exec .fin (inCall 0x93) = .next t := ⟨_, rfl⟩

theorem witness_SamePairBehavesIdentically :
    (inCall 0x93).SamePair { inCall 0x93 with results := [0x4B], pending := [Cycle.idle] } := by
  decide

theorem witness_ResetLeavesResetValues : Cycle.idle.cmdValid = false := by decide

theorem witness_ResetEdgeWinsAndRestoresResetState :
    Cycle.reset.rst = true ∧ ∀ d ∈ [Cycle.reset, Cycle.reset], d.rst = true := by decide

theorem witness_CommandBeforeFirstResetIsRefused :
    unreset.condition = .unreset ∧ (Cycle.present 0x000#10).rst = false ∧
    Cycle.reset.rst = true := by decide

theorem witness_ResetAbandonsOpenCall :
    (inCall 0x93).condition = .running ∧ (inCall 0x93).openFlag = true ∧
    (inCall 0x93).Coherent ∧ Cycle.reset.rst = true := by decide

theorem witness_ViolationSticksUntilReset :
    clockEdge (Cycle.present 0x231#10) State.reset =
      .fault (.sequenceViolation (.byte 0x31)) ∧
    (∀ c ∈ [Cycle.present 0x000#10, Cycle.idle], c.rst = false) ∧ Cycle.reset.rst = true :=
  ⟨rfl, by decide, rfl⟩

theorem witness_LaterCommandFaultNamesFirstOffender :
    faulted.condition = .violated (.byte 0x31) ∧
    clockEdge (Cycle.present 0x231#10) State.reset =
      .fault (.sequenceViolation (.byte 0x31)) ∧
    (Cycle.present 0x300#10).rst = false ∧ (Cycle.present 0x300#10).cmdValid = true :=
  ⟨rfl, rfl, rfl, rfl⟩

theorem witness_ViolationIsPrecise :
    clockEdge (Cycle.present 0x231#10) State.reset =
      .fault (.sequenceViolation (.byte 0x31)) := rfl

theorem witness_IdleCyclesChangeNothing : Cycle.idle.isIdle = true := by decide

theorem witness_StepRunsThePresentedCommand :
    (Instr.seed 0xFF).wf = true ∧
    (State.reset.withPending [Cycle.present 0x231#10]).pending = [Cycle.present 0x231#10] ∧
    (Cycle.present 0x231#10).rst = false ∧ (Cycle.present 0x231#10).cmdValid = true ∧
    ((inCall 0x93).withPending [Cycle.reset]).pending = [Cycle.reset] ∧ Cycle.reset.rst = true ∧
    ((inCall 0x93).withPending [Cycle.idle]).pending = [Cycle.idle] ∧
    Cycle.idle.isIdle = true ∧ State.reset.pending = [] := by decide

theorem witness_StepKeepsInvariant :
    (State.reset.withPending [Cycle.present 0x000#10]).Inv ∧
    (∃ t, step (State.reset.withPending [Cycle.present 0x000#10]) = .next t) ∧
    (inCall 0x93).Inv ∧ ∃ t, step (inCall 0x93) = .next t :=
  ⟨by decide, ⟨_, rfl⟩, by decide, ⟨_, rfl⟩⟩

theorem witness_CopiesAreIndependent : 1 < 2 := by decide

theorem witness_ResponsesAreNeverRevoked :
    ∃ t, step ((inCall 0x93).withPending [Cycle.present 0x300#10]) = .next t := ⟨_, rfl⟩

end Sys2Proof.Tests
end

section
/-! PROOFS. What `OPEN` is before and after a command, and the start commands out of a closed copy:
the lemmas, then O17, O32 and O34. -/

namespace Sys2Proof.Machine

/-- The guard of a command is transparent on a running copy whose `OPEN` allows the command. -/
theorem whenInOrder_of_inOrder {cmd : Instr} {s : State}
    {go : Host.Outcome State Fault Refusal} (hr : s.condition = .running)
    (ho : s.openFlag = openRequired cmd) : whenInOrder cmd s go = go := by
  simp [whenInOrder, hr, ho, orderAllows]

/-- `INIT` on a running copy with no call open (rule R43). -/
theorem exec_init_of_closed {s : State} (hr : s.condition = .running) (ho : s.openFlag = false) :
    exec .init s = .next ((s.setAcc initialValue).setOpen true) :=
  whenInOrder_of_inOrder hr ho

/-- `SEED v` on a running copy with no call open (rule R44). -/
theorem exec_seed_of_closed {s : State} (v : Byte) (hr : s.condition = .running)
    (ho : s.openFlag = false) :
    exec (.seed v) s = .next ((s.setAcc (unfinalise v)).setOpen true) :=
  whenInOrder_of_inOrder hr ho

/-- A command that completes found the `OPEN` it requires and left the `OPEN` it is to leave. -/
theorem openFlag_of_exec_eq_next {i : Instr} {s t : State} (h : exec i s = .next t) :
    s.openFlag = openRequired i ∧ t.openFlag = openAfter i := by
  obtain ⟨-, ho, ⟨rfl, rfl⟩ | ⟨v, rfl, rfl⟩ | ⟨b, a, rfl, -, rfl⟩ | ⟨a, rfl, -, rfl⟩⟩ :=
    exec_cases h <;> exact ⟨ho, rfl⟩

/-- The commands in order at `OPEN` = 0 are the start commands (rule R18). -/
theorem openRequired_eq_false_iff {i : Instr} :
    openRequired i = false ↔ i = .init ∨ ∃ v, i = .seed v := by
  cases i <;> simp [openRequired]

/-- Every table entry is the result of the bitwise procedure for its index (rule R21): the 256 cells
of the listing, compared one by one. -/
theorem table_eq_bitwiseEntry : ∀ i : Byte, table i = bitwiseEntry i := by decide

/-- In a cycle that presents no command the response is not valid (rule R40). -/
theorem portOutputs_of_not_cmdValid {c : Cycle} (anyByte : Byte) (s : State)
    (hc : c.cmdValid = false) : portOutputs anyByte s c = some ⟨false, anyByte⟩ := by
  simp [portOutputs, hc]

/-- Settles O17: a completed command found and left the `OPEN` of rule R11's table, and a reset edge
can only have been a reset. -/
theorem openFlagFollowsCommands : Obligations.OpenFlagFollowsCommands := by
  refine ⟨fun i s t h => ?_, fun c s t hrst h => ?_⟩
  · have hopen := openFlag_of_exec_eq_next h
    cases i <;> exact hopen
  · obtain ⟨-, rfl⟩ | ⟨hno, -, -⟩ | ⟨hno, -, -⟩ := clockEdge_cases h
    · rfl
    · simp [hrst] at hno
    · simp [hrst] at hno

/-- Settles O32: of the outcomes a completed command can have, `FIN`'s is the closed, running copy
with an empty accumulator. -/
theorem nothingSurvivesFin : Obligations.NothingSurvivesFin := by
  intro s t h
  obtain ⟨hr, -, ⟨hi, -⟩ | ⟨v, hi, -⟩ | ⟨b, a, hi, -⟩ | ⟨a, -, -, rfl⟩⟩ := exec_cases h
  · cases hi
  · cases hi
  · cases hi
  · simp [State.setOpen, State.clearAcc, State.emit, hr]

/-- Settles O34: the values are those of `State.reset`; in order at its `OPEN` = 0 are the start
commands alone, and what they load does not come from `ACC`. -/
theorem resetLeavesResetValues : Obligations.ResetLeavesResetValues := by
  refine ⟨rfl, rfl, rfl, rfl, table_eq_bitwiseEntry, fun anyByte c hc => ?_, fun i a => ⟨?_, ?_⟩,
    fun a => ⟨?_, fun v => ?_⟩⟩
  · rw [portOutputs_of_not_cmdValid _ _ hc]; rfl
  · rintro ⟨t, h⟩
    have ho : false = openRequired i := (openFlag_of_exec_eq_next h).1
    exact openRequired_eq_false_iff.1 ho.symm
  · rintro (rfl | ⟨v, rfl⟩)
    · exact ⟨_, exec_init_of_closed rfl rfl⟩
    · exact ⟨_, exec_seed_of_closed v rfl rfl⟩
  · rw [exec_init_of_closed rfl rfl, exec_init_of_closed rfl rfl]; rfl
  · rw [exec_seed_of_closed v rfl rfl, exec_seed_of_closed v rfl rfl]; rfl

end Sys2Proof.Machine
end

section
/-! PROOFS. What the host keeps beside a copy, the responses already given and the inputs still to
come, is carried through every edge unread: `recordEdge` and `runCycles` commute with
`State.underHost`. Two copies of one pair are one copy under two hosts' records, and O33 follows. -/

namespace Sys2Proof.Machine

/-- The copy `s` after the responses `past` were given and with the inputs `coming` still to come. -/
def State.underHost (past : List Byte) (coming : List Cycle) (s : State) : State :=
  { s with pending := coming, results := past ++ s.results }

/-- The copy without what the host keeps: `OPEN`, `ACC` and the fault record alone. -/
def State.bare (s : State) : State := { s with pending := [], results := [] }

@[simp] theorem State.underHost_openFlag (past : List Byte) (coming : List Cycle) (s : State) :
    (s.underHost past coming).openFlag = s.openFlag := rfl
@[simp] theorem State.underHost_acc (past : List Byte) (coming : List Cycle) (s : State) :
    (s.underHost past coming).acc = s.acc := rfl
@[simp] theorem State.underHost_condition (past : List Byte) (coming : List Cycle) (s : State) :
    (s.underHost past coming).condition = s.condition := rfl
@[simp] theorem State.underHost_results (past : List Byte) (coming : List Cycle) (s : State) :
    (s.underHost past coming).results = past ++ s.results := rfl

/-- Every state is its bare copy under its own host's record. -/
theorem State.bare_underHost (s : State) : s.bare.underHost s.results s.pending = s := by
  simp [State.bare, State.underHost]

/-- Copies of one pair differ in the host's record alone. -/
theorem State.SamePair.bare_eq {s t : State} (h : s.SamePair t) : s.bare = t.bare := by
  obtain ⟨hopen, hacc, hcond⟩ := h
  simp [State.bare, hopen, hacc, hcond]

/-- An outcome with its next state, if it has one, changed by `f`. -/
def mapNext (f : State → State) :
    Host.Outcome State Fault Refusal → Host.Outcome State Fault Refusal
  | .next t => .next (f t)
  | .fault r => .fault r
  | .refused r => .refused r

section HostRecord

variable (past : List Byte) (coming : List Cycle)

/-- The guard on the fault record does not read the host's record. -/
theorem whenRunning_underHost (f : State → State) (s : State)
    (go : Host.Outcome State Fault Refusal) :
    whenRunning (s.underHost past coming) (mapNext f go) = mapNext f (whenRunning s go) := by
  simp only [whenRunning, State.underHost_condition]
  cases s.condition <;> rfl

/-- The guard of a command does not read the host's record. -/
theorem whenInOrder_underHost (f : State → State) (cmd : Instr) (s : State)
    (go : Host.Outcome State Fault Refusal) :
    whenInOrder cmd (s.underHost past coming) (mapNext f go) =
      mapNext f (whenInOrder cmd s go) := by
  rw [whenInOrder, whenInOrder, ← whenRunning_underHost past coming, apply_ite (mapNext f)]; rfl

/-- The read of `ACC` does not read the host's record. -/
theorem readAcc_underHost (f : State → State) (cmd : Instr) (s : State)
    (go : Byte → Host.Outcome State Fault Refusal) :
    readAcc cmd (s.underHost past coming) (fun a => mapNext f (go a)) =
      mapNext f (readAcc cmd s go) := by
  simp only [readAcc, State.underHost_acc]
  cases s.acc <;> rfl

/-- Only a response touches the host's record, and it is added behind the earlier ones. -/
theorem State.emit_underHost (v : Byte) (s : State) :
    (s.underHost past coming).emit v = (s.emit v).underHost past coming := by
  simp [State.emit, State.underHost]

/-- A start command carries the host's record through unread. -/
theorem startCall_underHost (cmd : Instr) (v : Byte) (s : State) :
    startCall cmd v (s.underHost past coming) =
      mapNext (State.underHost past coming) (startCall cmd v s) :=
  whenInOrder_underHost past coming (State.underHost past coming) cmd s
    (.next ((s.setAcc v).setOpen (openAfter cmd)))

/-- A command carries the host's record through unread. -/
theorem exec_underHost (i : Instr) (s : State) :
    exec i (s.underHost past coming) = mapNext (State.underHost past coming) (exec i s) := by
  cases i with
  | init => exact startCall_underHost past coming .init _ s
  | seed v => exact startCall_underHost past coming (.seed v) _ s
  | byte b =>
    rw [exec, exec, execByte, execByte, ← whenInOrder_underHost, ← readAcc_underHost]; rfl
  | fin =>
    rw [exec, exec, execFin, execFin, ← whenInOrder_underHost, ← readAcc_underHost]
    simp only [State.emit_underHost]; rfl

/-- A clock edge carries the host's record through unread. -/
theorem clockEdge_underHost (c : Cycle) (s : State) :
    clockEdge c (s.underHost past coming) =
      mapNext (State.underHost past coming) (clockEdge c s) := by
  unfold clockEdge
  split
  · rfl
  · split
    · exact exec_underHost past coming _ s
    · rfl

/-- A recorded edge, a fault included, carries the host's record through unread. -/
theorem recordEdge_underHost (c : Cycle) (s : State) :
    recordEdge c (s.underHost past coming) = (recordEdge c s).underHost past coming := by
  simp only [recordEdge, clockEdge_underHost]
  cases clockEdge c s with
  | next t => rfl
  | fault r => cases r <;> rfl
  | refused r => rfl

/-- A recorded run carries the host's record through unread. -/
theorem runCycles_underHost (cs : List Cycle) (s : State) :
    runCycles cs (s.underHost past coming) = (runCycles cs s).underHost past coming := by
  induction cs generalizing s with
  | nil => rfl
  | cons c cs ih => rw [runCycles_cons, runCycles_cons, recordEdge_underHost, ih]

/-- A run is the run of the bare copy, under the host's record. -/
theorem runCycles_eq_bare_underHost (cs : List Cycle) (s : State) :
    runCycles cs s = (runCycles cs s.bare).underHost s.results s.pending := by
  rw [← runCycles_underHost, State.bare_underHost]

end HostRecord

/-- Settles O33: both runs are the run of the one bare copy the pair shares, and what that run emits
is what both emit. -/
theorem samePairBehavesIdentically : Obligations.SamePairBehavesIdentically := by
  intro cs s t h
  rw [runCycles_eq_bare_underHost cs s, runCycles_eq_bare_underHost cs t, h.bare_eq]
  exact ⟨⟨rfl, rfl, rfl⟩, (runCycles cs t.bare).results, rfl, rfl⟩

end Sys2Proof.Machine
end

section
/-! PROOFS. The listing against the bitwise procedure. One round is linear and loses nothing (the
generator's constant term is 1, so the bit shifted out stands in bit 0 of the result); eight rounds,
and so the table, are linear and a permutation. Then O19 and O21. -/

namespace Sys2Proof.Machine

/-- One round is linear: the feedback of an XOR is the XOR of the feedbacks. -/
theorem crcRound_xor (x y : Byte) : crcRound (x ^^^ y) = crcRound x ^^^ crcRound y := by
  simp only [crcRound, BitVec.getLsbD_xor, BitVec.shiftLeft_xor_distrib]
  cases x.getLsbD 7 <;> cases y.getLsbD 7
  · rfl
  · exact BitVec.xor_assoc ..
  · simp [BitVec.xor_assoc, BitVec.xor_comm poly]
  · simp [BitVec.xor_assoc, BitVec.xor_comm poly]

/-- Any number of rounds is linear. -/
theorem iterate_crcRound_xor (n : Nat) (x y : Byte) :
    crcRound^[n] (x ^^^ y) = crcRound^[n] x ^^^ crcRound^[n] y := by
  induction n generalizing x y with
  | zero => rfl
  | succ n ih => simp only [Function.iterate_succ_apply, crcRound_xor, ih]

/-- `POLY` is odd and a shift clears bit 0, so bit 0 after a round is the bit shifted out. -/
theorem crcRound_getLsbD_zero (r : Byte) : (crcRound r).getLsbD 0 = r.getLsbD 7 := by
  unfold crcRound
  cases r.getLsbD 7 <;> simp [poly]

/-- One round maps only 0x00 to 0x00. -/
theorem crcRound_eq_zero {r : Byte} (h : crcRound r = 0) : r = 0 := by
  have hmsb : r.getLsbD 7 = false := by rw [← crcRound_getLsbD_zero, h]; rfl
  have hshift : r <<< 1 = 0 := by rwa [crcRound, hmsb] at h
  refine BitVec.eq_of_getLsbD_eq fun i hi => ?_
  obtain rfl | hlt : i = 7 ∨ i + 1 < 8 := by omega
  · exact hmsb
  · simpa [hlt, ← BitVec.getLsbD_eq_getElem] using congrArg (BitVec.getLsbD · (i + 1)) hshift

/-- One round loses nothing. -/
theorem crcRound_injective : Function.Injective crcRound := fun x y h =>
  BitVec.xor_eq_zero_iff.1 <| crcRound_eq_zero <| by
    rw [crcRound_xor, h]; exact BitVec.xor_self

/-- The table, as a function of the index, is the eight rounds (rule R21). -/
theorem table_eq_iterate_crcRound : table = crcRound^[8] := funext table_eq_bitwiseEntry

/-- Linearity: an entry is the XOR of the entries of the set bits of its index (rule R22). -/
theorem table_xor (x y : Byte) : table (x ^^^ y) = table x ^^^ table y := by
  rw [table_eq_iterate_crcRound]; exact iterate_crcRound_xor 8 x y

/-- The table is a permutation of the 256 bytes (rule R22). -/
theorem table_bijective : Function.Bijective table := by
  rw [table_eq_iterate_crcRound]
  exact Finite.injective_iff_bijective.1 (crcRound_injective.iterate 8)

/-- The listing holds `TABLE[i]` at index `i`. -/
theorem tableListing_getElem? (i : Byte) : tableListing[i.toNat]? = some (table i) :=
  List.getElem?_eq_getElem _

/-- Settles O19: the procedure of the statement is `bitwiseEntry` with `POLY` written out. -/
theorem tableIsDefinedByEightRounds : Obligations.TableIsDefinedByEightRounds :=
  table_eq_bitwiseEntry

/-- The entries rule R22 names. -/
theorem table_named_entries :
    table 0x00 = 0x00 ∧ table 0x01 = 0x1D ∧ table 0x80 = 0x26 ∧ table 0xFF = 0xC4 ∧
    table 0x02 = 0x3A ∧ table 0x04 = 0x74 ∧ table 0x08 = 0xE8 ∧ table 0x10 = 0xCD ∧
    table 0x20 = 0x87 ∧ table 0x40 = 0x13 := by decide

/-- A first call over "123456789" returns 0x4B (rules R22, R59). -/
theorem crc8_check_message :
    crc8 [0x31, 0x32, 0x33, 0x34, 0x35, 0x36, 0x37, 0x38, 0x39] 0x00 true = 0x4B := by decide

/-- The rows of the listing (rule R22). -/
def tableRows : List (List Byte) :=
  [tableRow0, tableRow1, tableRow2, tableRow3, tableRow4, tableRow5, tableRow6, tableRow7,
    tableRow8, tableRow9, tableRowA, tableRowB, tableRowC, tableRowD, tableRowE, tableRowF]

/-- The listing is its rows one after the other. -/
theorem tableListing_eq_flatten : tableListing = tableRows.flatten := by
  simp [tableListing, tableRows]

/-- Lists whose bytes XOR to 0x00 one by one do so together. -/
theorem foldl_xor_flatten_eq_zero {rows : List (List Byte)}
    (h : ∀ row ∈ rows, row.foldl (fun x y => x ^^^ y) 0x00#8 = 0x00#8) :
    rows.flatten.foldl (fun x y => x ^^^ y) 0x00#8 = 0x00#8 := by
  induction rows with
  | nil => rfl
  | cons row rows ih =>
    rw [List.flatten_cons, List.foldl_append, h row List.mem_cons_self]
    exact ih fun r hr => h r (List.mem_cons_of_mem row hr)

/-- The XOR of all entries is 0x00 (rule R22), already row by row: in a row each bit of the index is
set an even number of times. -/
theorem tableListing_xor_eq_zero :
    tableListing.foldl (fun x y => x ^^^ y) 0x00#8 = 0x00#8 := by
  rw [tableListing_eq_flatten]
  exact foldl_xor_flatten_eq_zero (by decide)

/-- The sum of all entries is 32640 (rule R22): the sums of the rows, added. -/
theorem tableListing_sum : (tableListing.map BitVec.toNat).sum = 32640 := by
  rw [tableListing_eq_flatten, List.map_flatten, List.sum_flatten]
  decide

/-- Settles O21: the entries are the procedure's, linearity and the permutation come from one round,
and the remaining checks are computed from the listing. -/
theorem tableListingPassesItsChecks : Obligations.TableListingPassesItsChecks := by
  obtain ⟨h00, h01, h80, hFF, h02, h04, h08, h10, h20, h40⟩ := table_named_entries
  refine ⟨fun i => ⟨?_, table_eq_bitwiseEntry i⟩, tableListing_length, h00, h01, h80, hFF, h02, h04,
    h08, h10, h20, h40, table_xor, table_bijective,
    tableListing_xor_eq_zero, tableListing_sum, crc8_check_message⟩
  rw [tableListing_getElem?, table_eq_bitwiseEntry]

end Sys2Proof.Machine
end

section
/-! PROOFS. Decoding and the text form: the fields of a packed word, what the decoder can
answer, and the printed form of a command read back. Then O1 and O2. -/

namespace Sys2Proof

/-- A packed word carries its `op` in bits [9:8] (rule R33). -/
@[simp] theorem opField_append (op : BitVec 2) (d : Byte) : opField (op ++ d) = op :=
  BitVec.extractLsb'_append_eq_left

/-- A packed word carries its `d` in bits [7:0] (rule R33). -/
@[simp] theorem dField_append (op : BitVec 2) (d : Byte) : dField (op ++ d) = d :=
  BitVec.extractLsb'_append_eq_right

@[simp] theorem opField_packWord (op : BitVec 2) (d : Byte) : opField (packWord op d) = op :=
  opField_append op d
@[simp] theorem dField_packWord (op : BitVec 2) (d : Byte) : dField (packWord op d) = d :=
  dField_append op d

/-- A word is its two fields. -/
theorem opField_append_dField (w : CmdWord) : opField w ++ dField w = w :=
  BitVec.extractLsb'_append_extractLsb'

/-- The opcode map, row by row (rule R34). -/
theorem decode_of_opField_init {w : CmdWord} (h : opField w = 0b00#2) : decode w = .init := by
  simp [decode, h]
theorem decode_of_opField_seed {w : CmdWord} (h : opField w = 0b01#2) :
    decode w = .seed (dField w) := by
  simp [decode, h]
theorem decode_of_opField_byte {w : CmdWord} (h : opField w = 0b10#2) :
    decode w = .byte (dField w) := by
  simp [decode, h]
theorem decode_of_opField_fin {w : CmdWord} (h : opField w = 0b11#2) : decode w = .fin := by
  simp [decode, h]

/-- Everything the decoder can answer (rules R34, R37). -/
theorem decode_cases (w : CmdWord) :
    (opField w = 0b00#2 ∧ decode w = .init) ∨
    (opField w = 0b01#2 ∧ decode w = .seed (dField w)) ∨
    (opField w = 0b10#2 ∧ decode w = .byte (dField w)) ∨
    (opField w = 0b11#2 ∧ decode w = .fin) := by
  have hop : ∀ op : BitVec 2, op = 0b00#2 ∨ op = 0b01#2 ∨ op = 0b10#2 ∨ op = 0b11#2 := by decide
  obtain h | h | h | h := hop (opField w)
  · exact .inl ⟨h, decode_of_opField_init h⟩
  · exact .inr (.inl ⟨h, decode_of_opField_seed h⟩)
  · exact .inr (.inr (.inl ⟨h, decode_of_opField_byte h⟩))
  · exact .inr (.inr (.inr ⟨h, decode_of_opField_fin h⟩))

/-- The packed words of the four commands, whatever `d` (rules R34, R36). -/
@[simp] theorem decode_append_init (d : Byte) : decode (0b00#2 ++ d) = .init :=
  decode_of_opField_init (opField_append _ d)
@[simp] theorem decode_append_seed (d : Byte) : decode (0b01#2 ++ d) = .seed d := by
  rw [decode_of_opField_seed (opField_append _ d), dField_append]
@[simp] theorem decode_append_byte (d : Byte) : decode (0b10#2 ++ d) = .byte d := by
  rw [decode_of_opField_byte (opField_append _ d), dField_append]
@[simp] theorem decode_append_fin (d : Byte) : decode (0b11#2 ++ d) = .fin :=
  decode_of_opField_fin (opField_append _ d)

/-- Mask 0x300 keeps exactly the field `op` (rule R34). -/
theorem opField_and_mask (w : CmdWord) : opField (w &&& 0x300#10) = opField w := by
  have hmask : w &&& 0x300#10 = (opField w &&& 0b11#2) ++ (dField w &&& 0x00#8) := by
    rw [← BitVec.and_append, opField_append_dField]; rfl
  rw [hmask, opField_append]; exact BitVec.and_allOnes

/-- Words that agree under mask 0x300 with a match carry the match's `op`. -/
theorem opField_eq_of_and_mask {w m : CmdWord} (h : w &&& 0x300#10 = m) :
    opField w = opField m := by
  rw [← h, opField_and_mask]

/-- Bit 9 of a word is `op[1]`. -/
theorem getLsbD_nine (w : CmdWord) : w.getLsbD 9 = (opField w).getLsbD 1 := by simp [opField]

/-- Bit 8 of a word is `op[0]`. -/
theorem getLsbD_eight (w : CmdWord) : w.getLsbD 8 = (opField w).getLsbD 0 := by simp [opField]

end Sys2Proof

namespace Sys2Proof.Machine

/-- The reader takes a run of word characters into the word it is reading. -/
theorem lex_inWord_append {text more : List Char} (rest : List Char)
    (h : ∀ c ∈ more, isWordChar c = true) :
    lex (.inWord text) (more ++ rest) = lex (.inWord (text ++ more)) rest := by
  induction more generalizing text with
  | nil => simp
  | cons c more ih =>
    obtain ⟨hc, hmore⟩ := List.forall_mem_cons.1 h
    simp [lex, hc, ih hmore]

/-- Between tokens a word character begins a word. -/
theorem lexEnter_of_isWordChar {c : Char} (h : isWordChar c = true) :
    lexEnter c = ([], .inWord [c]) := by
  simp only [isWordChar, Bool.not_eq_true', Bool.or_eq_false_iff, beq_eq_false_iff_ne] at h
  simp [lexEnter, h]

/-- Between tokens the reader takes a run of word characters for one word. -/
theorem lex_between_append {c : Char} {more : List Char} (rest : List Char)
    (h : ∀ x ∈ c :: more, isWordChar x = true) :
    lex .between (c :: more ++ rest) = lex (.inWord (c :: more)) rest := by
  obtain ⟨hc, hmore⟩ := List.forall_mem_cons.1 h
  simpa [lex, lexEnter_of_isWordChar hc] using lex_inWord_append (text := [c]) rest hmore

/-- A hexadecimal digit is a word character. -/
theorem isWordChar_hexChar : ∀ n < 16, isWordChar (hexChar n) = true := by decide

/-- A printed hexadecimal digit is read back as its value. -/
theorem hexDigit_hexChar : ∀ n < 16, hexDigit (hexChar n) = some n := by decide

/-- The two hexadecimal digits of a byte are below 16. -/
theorem byte_digits_lt (b : Byte) : b.toNat / 16 < 16 ∧ b.toNat % 16 < 16 := by
  have := b.isLt; omega

/-- No character of a printed `<u8>` ends a word. -/
theorem isWordChar_of_mem_printByte (b : Byte) : ∀ c ∈ printByte b, isWordChar c = true := by
  obtain ⟨hhigh, hlow⟩ := byte_digits_lt b
  simp only [printByte, List.forall_mem_cons]
  exact ⟨by decide, by decide, isWordChar_hexChar _ hhigh, isWordChar_hexChar _ hlow,
    List.forall_mem_nil _⟩

/-- A printed `<u8>` spells its value (rule R39). -/
theorem wordByte_printByte (b : Byte) : wordByte (printByte b) = some b := by
  obtain ⟨hhigh, hlow⟩ := byte_digits_lt b
  simp [printByte, wordByte, hexDigit_hexChar _ hhigh, hexDigit_hexChar _ hlow, Nat.div_add_mod]

/-- A line of a mnemonic, a blank and a printed `<u8>` is two words. -/
theorem lex_operand_line (c : Char) (more : List Char) (b : Byte)
    (h : ∀ x ∈ c :: more, isWordChar x = true) :
    lex .between (c :: more ++ ' ' :: printByte b) =
      some [.word (c :: more), .word (printByte b)] := by
  have hbyte : lex .between (printByte b) = some [.word (printByte b)] := by
    simpa [printByte, lex] using lex_between_append [] (isWordChar_of_mem_printByte b)
  have hblank : isWordChar ' ' = false ∧ lexEnter ' ' = ([], .between) := by decide
  rw [lex_between_append _ h]
  simp [lex, hblank, hbyte]

/-- The two tokens of a `SEED` line and of a `BYTE` line (rule R39). -/
theorem parseTokens_seed (t : Token) :
    parseTokens [.word ['S', 'E', 'E', 'D'], t] = t.byte?.map fun s => .command (.seed s) := rfl
theorem parseTokens_byte (t : Token) :
    parseTokens [.word ['B', 'Y', 'T', 'E'], t] = t.byte?.map fun b => .command (.byte b) := rfl

/-- A printed command is read back as it (rule R39). -/
theorem parseLine_printInstr (i : Instr) : parseLine (printInstr i) = some (.command i) := by
  cases i with
  | init => rfl
  | seed s =>
    have hlex : lex .between (printInstr (.seed s)) = _ :=
      lex_operand_line 'S' ['E', 'E', 'D'] s (by simp [isWordChar])
    simp [parseLine, hlex, parseTokens_seed, Token.byte?, wordByte_printByte]
  | byte b =>
    have hlex : lex .between (printInstr (.byte b)) = _ :=
      lex_operand_line 'B' ['Y', 'T', 'E'] b (by simp [isWordChar])
    simp [parseLine, hlex, parseTokens_byte, Token.byte?, wordByte_printByte]
  | fin => rfl

/-- Settles O1: the first two clauses read `op` from the word, whole or under the mask; the others
read its bits in each of the decoder's answers. -/
theorem opFieldSelectsCommand : Obligations.OpFieldSelectsCommand := by
  refine ⟨fun d => ⟨decode_append_init d, decode_append_seed d, decode_append_byte d,
    decode_append_fin d⟩, fun w => ?_, fun w => ?_, fun w => ?_, fun s isFirstCall => ?_⟩
  · exact ⟨fun h => decode_of_opField_init (opField_eq_of_and_mask h),
      fun h => decode_of_opField_seed (opField_eq_of_and_mask h),
      fun h => decode_of_opField_byte (opField_eq_of_and_mask h),
      fun h => decode_of_opField_fin (opField_eq_of_and_mask h)⟩
  · rw [getLsbD_nine]
    obtain ⟨h, hw⟩ | ⟨h, hw⟩ | ⟨h, hw⟩ | ⟨h, hw⟩ := decode_cases w <;> simp [h, hw]
  · rw [getLsbD_nine, getLsbD_eight]
    obtain ⟨h, hw⟩ | ⟨h, hw⟩ | ⟨h, hw⟩ | ⟨h, hw⟩ := decode_cases w <;> simp [h, hw]
  · rw [getLsbD_eight]
    cases isFirstCall <;> simp [startCommand, encode]

/-- A word whose `d` is not 0x00 is no canonical word of a command without operand. -/
theorem packWord_zero_ne_append {op op' : BitVec 2} {d : Byte} (hd : d ≠ 0x00#8) :
    packWord op 0x00#8 ≠ op' ++ d := fun h =>
  hd <| by simpa using (congrArg dField h).symm

/-- Settles O2: whatever `d`, the decoder answers `INIT` and `FIN`, whose printed form and canonical
word do not hold it. -/
theorem ignoredFieldSelectsSameCommand : Obligations.IgnoredFieldSelectsSameCommand := by
  refine ⟨fun d => ⟨decode_append_init d, decode_append_fin d⟩, rfl, rfl, fun d => ⟨?_, ?_⟩,
    fun w => parseLine_printInstr (decode w), fun d hd => ⟨?_, ?_⟩⟩
  · rw [disassemble, decode_append_init]; rfl
  · rw [disassemble, decode_append_fin]; rfl
  · rw [decode_append_init]; exact packWord_zero_ne_append hd
  · rw [decode_append_fin]; exact packWord_zero_ne_append hd

end Sys2Proof.Machine
end

section
/-! PROOFS. The start commands and the `FIN` that ends their call: a command out of order, `FIN` in a
call, a call with no byte, and the two XORs with `XOR_VALUE` undoing each other. Then O8, O9 and O12. -/

namespace Sys2Proof.Machine

/-- The guard of a command turns a command that `OPEN` forbids into its sequence violation
(rule R65). -/
theorem whenInOrder_of_outOfOrder {cmd : Instr} {s : State}
    {go : Host.Outcome State Fault Refusal} (hr : s.condition = .running)
    (ho : s.openFlag ≠ openRequired cmd) :
    whenInOrder cmd s go = .fault (.sequenceViolation cmd) := by
  simp [whenInOrder, hr, ho, orderAllows, raiseSequenceViolation]

/-- On a copy that is not running the guard's answer is the same for every command (rules R66, R76). -/
theorem whenInOrder_eq_of_not_running {s : State} (hr : s.condition ≠ .running) (cmd cmd' : Instr)
    (go go' : Host.Outcome State Fault Refusal) :
    whenInOrder cmd s go = whenInOrder cmd' s go' := by
  unfold whenInOrder whenRunning
  cases h : s.condition with
  | running => exact absurd h hr
  | violated _ => rfl
  | unreset => rfl

/-- `INIT` in a call is a sequence violation (rule R43). -/
theorem exec_init_of_open {s : State} (hr : s.condition = .running) (ho : s.openFlag = true) :
    exec .init s = .fault (.sequenceViolation .init) :=
  whenInOrder_of_outOfOrder hr (by simp [ho, openRequired])

/-- `SEED v` in a call is a sequence violation (rule R44). -/
theorem exec_seed_of_open {s : State} (v : Byte) (hr : s.condition = .running)
    (ho : s.openFlag = true) : exec (.seed v) s = .fault (.sequenceViolation (.seed v)) :=
  whenInOrder_of_outOfOrder hr (by simp [ho, openRequired])

/-- The read of `ACC` goes on with the value it holds. -/
theorem readAcc_of_some {cmd : Instr} {s : State} {a : Byte}
    {go : Byte → Host.Outcome State Fault Refusal} (ha : s.acc = some a) :
    readAcc cmd s go = go a := by
  simp [readAcc, ha]

/-- `FIN` in a call whose raw accumulator is `a` (rule R50). -/
theorem exec_fin_of_open {s : State} {a : Byte} (hr : s.condition = .running)
    (ho : s.openFlag = true) (ha : s.acc = some a) :
    exec .fin s = .next (((s.emit (finalise a)).clearAcc).setOpen false) :=
  (whenInOrder_of_inOrder (cmd := .fin) hr ho).trans (readAcc_of_some ha)

/-- A call with no byte: `FIN` finds the raw accumulator the start command loaded, and closes the
call again (rules R57, R58). -/
theorem execAll_start_fin {start : Instr} {s : State} {a : Byte} (hr : s.condition = .running)
    (ho : s.openFlag = false) (hstart : exec start s = .next ((s.setAcc a).setOpen true)) :
    execAll [start, .fin] s =
      .next { s with acc := none, results := s.results ++ [finalise a] } := by
  have hfin : exec .fin ((s.setAcc a).setOpen true) = _ := exec_fin_of_open hr rfl rfl
  rw [execAll_cons_of_next _ hstart, execAll_cons_of_next _ hfin]
  simp [State.setOpen, State.clearAcc, State.emit, State.setAcc, ho]

/-- XOR with a fixed value is its own inverse (rules R45, R48). -/
theorem xor_undoes_xor (k a : Byte) : k ^^^ (a ^^^ k) = a := by
  rw [BitVec.xor_comm a, ← BitVec.xor_assoc, BitVec.xor_self, BitVec.zero_xor]

/-- Finalising the accumulator a start value loads gives the start value back (rule R58). -/
@[simp] theorem finalise_unfinalise (v : Byte) : finalise (unfinalise v) = v := by
  rw [finalise, unfinalise, BitVec.xor_assoc, xor_undoes_xor]

/-- A result made raw again is the accumulator the call ended with (rule R45). -/
@[simp] theorem unfinalise_finalise (a : Byte) : unfinalise (finalise a) = a :=
  xor_undoes_xor xorValue a

/-- The map from a start value to the accumulator it loads is a bijection (rule R44). -/
theorem unfinalise_bijective : Function.Bijective unfinalise :=
  Function.bijective_iff_has_inverse.2 ⟨finalise, finalise_unfinalise, unfinalise_finalise⟩

/-- `SEED 0x00` has the effect of `INIT` (rule R44), save that each names itself in its violation. -/
theorem exec_seed_zero (s : State) :
    exec (.seed 0x00#8) s = exec .init s ∨ (s.condition = .running ∧ s.openFlag = true) := by
  by_cases hr : s.condition = .running
  · cases ho : s.openFlag with
    | false =>
      left
      rw [exec_seed_of_closed _ hr ho, exec_init_of_closed hr ho]; rfl
    | true => exact .inr ⟨hr, rfl⟩
  · exact .inl (whenInOrder_eq_of_not_running hr _ _ _ _)

/-- Settles O8: `INIT` in order and out of order, its words, and the call it opens closed at once. -/
theorem initStartsFirstCall : Obligations.InitStartsFirstCall :=
  ⟨fun _ hr ho => exec_init_of_closed hr ho, fun _ hr ho => exec_init_of_open hr ho,
    decode_append_init, rfl,
    fun _ hr ho => execAll_start_fin hr ho (exec_init_of_closed hr ho),
    ⟨_, exec_init_of_closed rfl rfl⟩⟩

/-- Settles O9: `SEED` in order and out of order, its word, its likeness to `INIT`, and its call
closed at once, where the result is the start value again. -/
theorem seedStartsContinuingCall : Obligations.SeedStartsContinuingCall := by
  refine ⟨fun v _ hr ho => exec_seed_of_closed v hr ho, fun v _ hr ho => exec_seed_of_open v hr ho,
    fun v => ⟨decode_append_seed v, rfl⟩, exec_seed_zero, unfinalise_bijective,
    fun v s hr ho => ?_, fun v => ⟨_, exec_seed_of_closed v rfl rfl⟩⟩
  rw [execAll_start_fin hr ho (exec_seed_of_closed v hr ho), finalise_unfinalise]

/-- Settles O12: `FIN` leaves a closed copy, on which `SEED` loads the result made raw again. -/
theorem seedUndoesFin : Obligations.SeedUndoesFin := by
  refine ⟨fun a s hr ho ha => ?_, xor_undoes_xor⟩
  have hseed : exec (.seed (finalise a)) (((s.emit (finalise a)).clearAcc).setOpen false) = _ :=
    exec_seed_of_closed _ hr rfl
  rw [execAll_cons_of_next _ (exec_fin_of_open hr ho ha), ← finalise,
    execAll_cons_of_next _ hseed, unfinalise_finalise]
  simp [State.setOpen, State.setAcc, State.clearAcc, State.emit, ho, ha]

end Sys2Proof.Machine
end

section
/-! PROOFS. The accumulate command `BYTE`, in a call and out of one, and the map `foldByte` from
accumulator and byte to the new accumulator. Then O23 and O10. -/

namespace Sys2Proof.Machine

/-- Writing back the `OPEN` a copy has changes nothing. -/
theorem State.setOpen_of_openFlag {s : State} {v : Bool} (ho : s.openFlag = v) :
    s.setOpen v = s := by
  subst ho; rfl

/-- `BYTE b` in a call whose raw accumulator is `a` (rule R46). -/
theorem exec_byte_of_open {s : State} {a : Byte} (b : Byte) (hr : s.condition = .running)
    (ho : s.openFlag = true) (ha : s.acc = some a) :
    exec (.byte b) s = .next (s.setAcc (foldByte a b)) :=
  calc exec (.byte b) s
    _ = .next ((s.setAcc (foldByte a b)).setOpen true) :=
      (whenInOrder_of_inOrder (cmd := .byte b) hr ho).trans (readAcc_of_some ha)
    _ = .next (s.setAcc (foldByte a b)) :=
      congrArg Host.Outcome.next (State.setOpen_of_openFlag (s := s.setAcc _) ho)

/-- `BYTE b` with no call open is a sequence violation (rule R46). -/
theorem exec_byte_of_closed {s : State} (b : Byte) (hr : s.condition = .running)
    (ho : s.openFlag = false) : exec (.byte b) s = .fault (.sequenceViolation (.byte b)) :=
  whenInOrder_of_outOfOrder hr (by simp [ho, openRequired])

/-- The byte that equals the accumulator clears it (rule R46). -/
theorem foldByte_self (a : Byte) : foldByte a a = 0x00#8 := by
  rw [foldByte, tableIndex, BitVec.xor_self]; rfl

/-- The byte 0x00 reads the entry at the accumulator itself (rule R46). -/
theorem foldByte_zero (a : Byte) : foldByte a 0x00#8 = table a := by
  rw [foldByte, tableIndex, BitVec.xor_zero]

/-- For a fixed byte the index is a permutation of the accumulator (rule R49). -/
theorem tableIndex_bijective_acc (b : Byte) : Function.Bijective fun a => tableIndex a b :=
  Function.Involutive.bijective fun a => by
    rw [tableIndex, tableIndex, BitVec.xor_comm, xor_undoes_xor]

/-- For a fixed accumulator the index is a permutation of the byte (rule R49). -/
theorem tableIndex_bijective_byte (a : Byte) : Function.Bijective (tableIndex a) :=
  Function.Involutive.bijective fun b => by
    rw [tableIndex, tableIndex, BitVec.xor_comm a b, xor_undoes_xor]

/-- The order of the bytes matters: 0x31 and 0x32 folded into 0xFF, either way round (rule R46). -/
theorem foldByte_order_example :
    foldByte (foldByte 0xFF#8 0x31#8) 0x32#8 = 0xBC#8 ∧
    foldByte (foldByte 0xFF#8 0x32#8) 0x31#8 = 0x4F#8 := by decide

/-- Settles O23: `BYTE` loads the entry at `a ^ b`, and every entry is the eight rounds of its
index. -/
theorem byteStepIsEightBitwiseRounds : Obligations.ByteStepIsEightBitwiseRounds := by
  refine ⟨fun a b s hr ho ha => ?_, fun x y => table_eq_bitwiseEntry (x ^^^ y)⟩
  rw [exec_byte_of_open b hr ho ha, foldByte, table_eq_bitwiseEntry]; rfl

/-- Settles O10: `BYTE` in order and out of order and its word; the new accumulator is the table's
permutation after that of the index. -/
theorem byteFoldsOneByte : Obligations.ByteFoldsOneByte :=
  ⟨fun _ b _ hr ho ha => exec_byte_of_open b hr ho ha,
    fun b _ hr ho => exec_byte_of_closed b hr ho,
    fun b => ⟨decode_append_byte b, rfl⟩,
    fun a => ⟨foldByte_self a, foldByte_zero a⟩,
    fun b => table_bijective.comp (tableIndex_bijective_acc b),
    fun a => table_bijective.comp (tableIndex_bijective_byte a),
    foldByte_order_example⟩

end Sys2Proof.Machine
end

section
/-! PROOFS. The finish command `FIN` out of order, the map from raw accumulator to result, and the
copy a `FIN` leaves behind. Then O11. -/

namespace Sys2Proof.Machine

/-- `FIN` with no call open is a sequence violation (rule R50). -/
theorem exec_fin_of_closed {s : State} (hr : s.condition = .running) (ho : s.openFlag = false) :
    exec .fin s = .fault (.sequenceViolation .fin) :=
  whenInOrder_of_outOfOrder hr (by simp [ho, openRequired])

/-- The map from raw accumulator to result is a bijection (rule R50). -/
theorem finalise_bijective : Function.Bijective finalise :=
  Function.bijective_iff_has_inverse.2 ⟨unfinalise, unfinalise_finalise, finalise_unfinalise⟩

/-- A `FIN` that completes leaves a running copy with no call open (rule R50). -/
theorem running_and_closed_of_exec_fin {s t : State} (h : exec .fin s = .next t) :
    t.condition = .running ∧ t.openFlag = false :=
  ⟨congrArg State.condition (nothingSurvivesFin s t h), (openFlag_of_exec_eq_next h).2⟩

/-- Settles O11: `FIN` in order and out of order, its words, and the result as a bijection; the copy
it leaves is closed, and a call closed at once returns what its start command made raw. -/
theorem finReturnsResultAndClosesCall : Obligations.FinReturnsResultAndClosesCall := by
  refine ⟨fun a s hr ho ha => exec_fin_of_open hr ho ha, fun s hr ho => exec_fin_of_closed hr ho,
    decode_append_fin, rfl, finalise_bijective, fun s t b h => ?_, fun v s hr ho => ⟨?_, ?_⟩,
    exec_fin_of_closed rfl rfl⟩
  · obtain ⟨hr, ho⟩ := running_and_closed_of_exec_fin h
    exact ⟨exec_byte_of_closed b hr ho, exec_fin_of_closed hr ho⟩
  · exact execAll_start_fin hr ho (exec_init_of_closed hr ho)
  · rw [execAll_start_fin hr ho (exec_seed_of_closed v hr ho), finalise_unfinalise]

end Sys2Proof.Machine
end

section
/-! PROOFS. Whole calls: the commands of a call run to their `FIN`, a continuing call picks up the
raw accumulator the call before ended with, and a checksum folded in after its message. Then O25,
O28, O27, O29 and O30. -/

namespace Sys2Proof.Machine

/-- The start command of a call loads the call's raw start value (rules R43, R44). -/
theorem exec_startCommand (v : Byte) (first : Bool) {s : State} (hr : s.condition = .running)
    (ho : s.openFlag = false) :
    exec (startCommand v first) s = .next ((s.setAcc (callStart v first)).setOpen true) := by
  cases first with
  | true => exact exec_init_of_closed hr ho
  | false => exact exec_seed_of_closed v hr ho

/-- The rest of a call from raw accumulator `a`: the bytes are folded in and `FIN` returns the
outcome (rules R46, R50). -/
theorem execAll_bytes_fin (data : List Byte) {s : State} {a : Byte} (hr : s.condition = .running)
    (ho : s.openFlag = true) (ha : s.acc = some a) :
    execAll (data.map Instr.byte ++ [.fin]) s =
      .next (((s.emit (finalise (walk a data))).clearAcc).setOpen false) := by
  induction data generalizing s a with
  | nil => exact execAll_cons_of_next [] (exec_fin_of_open hr ho ha)
  | cons b rest ih =>
    exact (execAll_cons_of_next _ (exec_byte_of_open b hr ho ha)).trans
      (ih (s := s.setAcc (foldByte a b)) hr ho rfl)

/-- The commands of a whole call out of a closed copy (rule R52). -/
theorem execAll_callCommands (data : List Byte) (v : Byte) (first : Bool) {s : State}
    (hr : s.condition = .running) (ho : s.openFlag = false) :
    execAll (callCommands data v first) s =
      .next { s with acc := none, results := s.results ++ [crc8 data v first] } := by
  have hrest := execAll_bytes_fin data (s := (s.setAcc (callStart v first)).setOpen true) hr rfl rfl
  rw [callCommands, execAll_cons_of_next _ (exec_startCommand v first hr ho), hrest, ← crc8]
  simp [State.setOpen, State.clearAcc, State.emit, State.setAcc, ho]

/-- A first call over no data returns 0x00 (rule R57). -/
@[simp] theorem crc8_nil_first (x : Byte) : crc8 [] x true = 0x00#8 :=
  BitVec.xor_self (x := xorValue)

/-- A continuing call over no data returns its `start_value` (rule R58). -/
@[simp] theorem crc8_nil_continuing (v : Byte) : crc8 [] v false = v := finalise_unfinalise v

/-- A result made raw again is the accumulator its call ended with (rules R45, R52). -/
theorem unfinalise_crc8 (data : List Byte) (v : Byte) (first : Bool) :
    unfinalise (crc8 data v first) = walk (callStart v first) data :=
  unfinalise_finalise _

/-- A continuing call goes on where the call before it, first or continuing, ended (rule R55). -/
theorem crc8_continuing_crc8 (d1 d2 : List Byte) (v : Byte) (first : Bool) :
    crc8 d2 (crc8 d1 v first) false = crc8 (d1 ++ d2) v first :=
  calc crc8 d2 (crc8 d1 v first) false
    _ = finalise (walk (unfinalise (crc8 d1 v first)) d2) := rfl
    _ = finalise (walk (callStart v first) (d1 ++ d2)) := by rw [unfinalise_crc8, walk_append]

/-- A chain of continuing calls goes on where the call before it ended (rule R55). -/
theorem chainCalls_crc8 (d : List Byte) (ds : List (List Byte)) (v : Byte) (first : Bool) :
    chainCalls (crc8 d v first) ds = crc8 (d ++ ds.flatten) v first := by
  induction ds generalizing d with
  | nil => simp
  | cons d' ds ih =>
    rw [chainCalls_cons, crc8_continuing_crc8, ih, List.flatten_cons, List.append_assoc]

/-- A chain that starts with a continuing call: the start value is the result of an empty call
(rules R55, R58). -/
theorem chainCalls_eq_crc8 (ds : List (List Byte)) (v : Byte) :
    chainCalls v ds = crc8 ds.flatten v false := by
  simpa using chainCalls_crc8 [] ds v false

/-- A byte-at-a-time chain goes on where the call before it ended (rule R61). -/
theorem byteChain_crc8 (d data : List Byte) (v : Byte) (first : Bool) :
    byteChain (crc8 d v first) data = crc8 (d ++ data) v first := by
  rw [byteChain, chainCalls_crc8, ← List.flatMap_def, List.flatMap_singleton']

/-- The finalised accumulator folded into itself reads the entry at `XOR_VALUE` (rule R62). -/
theorem foldByte_finalise (a : Byte) : foldByte a (finalise a) = table xorValue := by
  rw [foldByte, tableIndex, finalise, ← BitVec.xor_assoc, BitVec.xor_self, BitVec.zero_xor]

/-- The raw accumulator after a message and its checksum (rule R62). -/
theorem walk_append_crc8 (data : List Byte) (v : Byte) (first : Bool) :
    walk (callStart v first) (data ++ [crc8 data v first]) = table xorValue := by
  rw [walk_append, walk_cons, walk_nil, crc8, foldByte_finalise]

/-- The entry at `XOR_VALUE` (rule R62). -/
theorem table_xorValue : table xorValue = 0xC4#8 := by decide

/-- A call over a message and its checksum returns the residue made visible (rule R62). -/
theorem crc8_append_crc8 (data : List Byte) (v : Byte) (first : Bool) :
    crc8 (data ++ [crc8 data v first]) v first = 0x3B#8 := by
  rw [crc8, walk_append_crc8, table_xorValue]; rfl

/-- Settles O25: the two closed forms are `crc8` with its constants written out. -/
theorem wholeCallEmitsItsCrc : Obligations.WholeCallEmitsItsCrc :=
  ⟨fun _ _ => rfl, fun _ _ => rfl,
    fun data v first _ hr ho => execAll_callCommands data v first hr ho⟩

/-- Settles O28: the commands are those of a call with no data. -/
theorem emptyCallsReturnTheirStart : Obligations.EmptyCallsReturnTheirStart := by
  refine ⟨fun x => ⟨rfl, crc8_nil_first x⟩, crc8_nil_continuing,
    fun s hr ho => ⟨?_, fun v => ?_⟩⟩
  · exact (execAll_callCommands [] 0x00#8 true hr ho).trans (by rw [crc8_nil_first])
  · exact (execAll_callCommands [] v false hr ho).trans (by rw [crc8_nil_continuing])

/-- Settles O27: a call, or a chain of calls, after a first call, which ignores its `start_value`,
and after a continuing one. -/
theorem chainingEqualsOneCall : Obligations.ChainingEqualsOneCall :=
  ⟨fun d1 d2 x _ => crc8_continuing_crc8 d1 d2 x true,
    fun d1 d2 v => crc8_continuing_crc8 d1 d2 v false,
    fun d ds x _ => chainCalls_crc8 d ds x true,
    chainCalls_eq_crc8⟩

/-- Settles O29: each intermediate result is that of the chain over the bytes so far. -/
theorem byteAtATimeChainingEqualsOneCall : Obligations.ByteAtATimeChainingEqualsOneCall :=
  fun b m x _ => ⟨byteChain_crc8 [b] m x true, fun k => byteChain_crc8 [b] (m.take k) x true⟩

/-- Settles O30: a chain, however cut, is one call over all its data, and its result made raw is
where the last call goes on. -/
theorem appendedChecksumLeavesResidue : Obligations.AppendedChecksumLeavesResidue := by
  refine fun m x y => ⟨walk_append_crc8 m x true, table_xorValue, crc8_append_crc8 m x true,
    fun d ds => ⟨fun hm => ?_, fun hmc => ?_, fun last hmc => ?_⟩⟩
  · rw [chainCalls_crc8, hm]
  · rw [chainCalls_crc8, hmc, crc8_append_crc8]
  · rw [chainCalls_crc8, unfinalise_crc8, ← walk_append, hmc, walk_append_crc8]

end Sys2Proof.Machine
end

section
/-! PROOFS. A command on a running coherent copy, in order and out of order: it completes or is its
own sequence violation. Then O13 and O14. -/

namespace Sys2Proof.Machine

/-- In a call a coherent copy's accumulator holds a value (rule R10). -/
theorem State.Coherent.exists_acc {s : State} (hc : s.Coherent) (ho : s.openFlag = true) :
    ∃ a, s.acc = some a :=
  Option.isSome_iff_exists.1 (hc.trans ho)

/-- A command in order completes on a running coherent copy (rule R64). -/
theorem exec_of_inOrder {i : Instr} {s : State} (hr : s.condition = .running)
    (hc : s.Coherent) (ho : s.openFlag = openRequired i) : ∃ t, exec i s = .next t := by
  cases i with
  | init => exact ⟨_, exec_init_of_closed hr ho⟩
  | seed v => exact ⟨_, exec_seed_of_closed v hr ho⟩
  | byte b =>
    obtain ⟨a, ha⟩ := hc.exists_acc ho
    exact ⟨_, exec_byte_of_open b hr ho ha⟩
  | fin =>
    obtain ⟨a, ha⟩ := hc.exists_acc ho
    exact ⟨_, exec_fin_of_open hr ho ha⟩

/-- A command that `OPEN` forbids is its own sequence violation on a running copy (rule R65). -/
theorem exec_of_outOfOrder {i : Instr} {s : State} (hr : s.condition = .running)
    (ho : s.openFlag ≠ openRequired i) : exec i s = .fault (.sequenceViolation i) := by
  cases i <;> exact whenInOrder_of_outOfOrder hr ho

/-- On a running coherent copy a command is its own sequence violation exactly when `OPEN` forbids
it (rules R64, R65). -/
theorem outOfOrder_iff_exec_eq_violation {i : Instr} {s : State} (hr : s.condition = .running)
    (hc : s.Coherent) :
    s.openFlag ≠ openRequired i ↔ exec i s = .fault (.sequenceViolation i) := by
  refine ⟨exec_of_outOfOrder hr, fun hfault ho => ?_⟩
  obtain ⟨t, hnext⟩ := exec_of_inOrder hr hc ho
  simp [hfault] at hnext

/-- Settles O13: the next state each command's rule gives, where in a call the accumulator's value
comes from coherence. -/
theorem commandInOrderCompletes : Obligations.CommandInOrderCompletes := by
  intro i s hr hc ho
  cases i with
  | init => exact ⟨_, exec_init_of_closed hr ho, hr, rfl, rfl, rfl⟩
  | seed v => exact ⟨_, exec_seed_of_closed v hr ho, hr, rfl, rfl, rfl⟩
  | byte b =>
    obtain ⟨a, ha⟩ := hc.exists_acc ho
    exact ⟨_, exec_byte_of_open b hr ho ha, hr, ho.symm, rfl, a, ha, rfl⟩
  | fin =>
    obtain ⟨a, ha⟩ := hc.exists_acc ho
    exact ⟨_, exec_fin_of_open hr ho ha, hr, rfl, rfl, a, ha, rfl⟩

/-- Settles O14: the `OPEN` the statement lists for a command is the one the command does not
require, and there alone it faults. -/
theorem commandOutOfOrderIsSequenceViolation :
    Obligations.CommandOutOfOrderIsSequenceViolation := by
  intro i s hr hc
  refine ⟨?_, ?_⟩
  · rw [← outOfOrder_iff_exec_eq_violation hr hc]
    cases i <;> simp [openRequired]
  · by_cases ho : s.openFlag = openRequired i
    · exact .inl (exec_of_inOrder hr hc ho)
    · exact .inr (exec_of_outOfOrder hr ho)

end Sys2Proof.Machine
end

section
/-! PROOFS. What one edge does in a cycle with reset, with a command and with neither, and the copy
whose violation is recorded: without reset every edge, and so every run, leaves it as it is. Then
O39. -/

namespace Sys2Proof.Machine

/-- A reset edge resets, whatever else is presented (rule R74). -/
theorem clockEdge_of_rst {c : Cycle} (s : State) (hrst : c.rst = true) :
    clockEdge c s = .next s.applyReset := by
  simp [clockEdge, hrst]

/-- Without reset the edge of a presented command runs the command (rule R40). -/
theorem clockEdge_of_cmdValid {c : Cycle} (s : State) (hrst : c.rst = false)
    (hcmd : c.cmdValid = true) : clockEdge c s = exec (decode c.word) s := by
  simp [clockEdge, hrst, hcmd]

/-- An idle edge holds the state (rule R81). -/
theorem clockEdge_of_idle {c : Cycle} (s : State) (hrst : c.rst = false)
    (hcmd : c.cmdValid = false) : clockEdge c s = .next s := by
  simp [clockEdge, hrst, hcmd]

/-- An edge that faults on a standing violation leaves the record as it is (rule R66). -/
theorem recordEdge_of_violationStands {c : Cycle} {s : State} {cmd : Instr}
    (h : clockEdge c s = .fault (.violationStands cmd)) : recordEdge c s = s := by
  simp [recordEdge, h]

/-- The guard of every command stops at a recorded violation (rule R66). -/
theorem whenInOrder_of_violated {cmd : Instr} {s : State} (h : s.condition = .violated cmd)
    (i : Instr) (go : Host.Outcome State Fault Refusal) :
    whenInOrder i s go = .fault (.violationStands cmd) := by
  simp [whenInOrder, whenRunning, h]

/-- Every command faults while a violation is recorded (rule R66). -/
theorem exec_of_violated {cmd : Instr} {s : State} (h : s.condition = .violated cmd) (i : Instr) :
    exec i s = .fault (.violationStands cmd) := by
  cases i <;> exact whenInOrder_of_violated h _ _

/-- Without reset an edge leaves a copy with a recorded violation as it is (rule R66). -/
theorem recordEdge_of_violated {cmd : Instr} {c : Cycle} {s : State}
    (h : s.condition = .violated cmd) (hrst : c.rst = false) : recordEdge c s = s := by
  cases hcmd : c.cmdValid with
  | true =>
    exact recordEdge_of_violationStands
      ((clockEdge_of_cmdValid s hrst hcmd).trans (exec_of_violated h _))
  | false => exact recordEdge_of_next (clockEdge_of_idle s hrst hcmd)

/-- Without reset a run leaves a copy with a recorded violation as it is (rule R66). -/
theorem runCycles_of_violated {cmd : Instr} {cs : List Cycle} {s : State}
    (h : s.condition = .violated cmd) (hrst : ∀ c ∈ cs, c.rst = false) : runCycles cs s = s := by
  induction cs with
  | nil => rfl
  | cons c cs ih =>
    obtain ⟨hc, hcs⟩ := List.forall_mem_cons.1 hrst
    rw [runCycles_cons, recordEdge_of_violated h hc, ih hcs]

/-- Settles O39: the edge that raises the violation records it, and the record stands over every
run, against every command, until a reset edge. -/
theorem violationSticksUntilReset : Obligations.ViolationSticksUntilReset := by
  refine ⟨fun cmd c cs s h hrst => ?_, fun cmd cs s hrst => runCycles_of_violated rfl hrst,
    fun cmd i s t h => ?_, fun cmd c s hrst => clockEdge_of_rst _ hrst⟩
  · rw [runCycles_cons, recordEdge_of_violation h, runCycles_of_violated rfl hrst]
  · rw [exec_of_violated rfl i] at h
    cases h

end Sys2Proof.Machine
end

section
/-! PROOFS. Reset edges and idle edges as the recorded run takes them: a reset held is one reset,
and idle cycles can be left out. Then O36 and O42. -/

namespace Sys2Proof.Machine

/-- Resetting a copy that was just reset changes nothing. -/
@[simp] theorem State.applyReset_applyReset (s : State) :
    s.applyReset.applyReset = s.applyReset := rfl

/-- In a reset cycle the response is not valid, whatever is presented (rule R74). -/
theorem portOutputs_of_rst {c : Cycle} (anyByte : Byte) (s : State) (hrst : c.rst = true) :
    portOutputs anyByte s c = some ⟨false, anyByte⟩ := by
  simp [portOutputs, hrst]

/-- A reset edge is recorded as the reset (rule R74). -/
theorem recordEdge_of_rst {c : Cycle} (s : State) (hrst : c.rst = true) :
    recordEdge c s = s.applyReset :=
  recordEdge_of_next (clockEdge_of_rst s hrst)

/-- Reset edges leave a copy that was just reset as it is (rule R74). -/
theorem runCycles_applyReset_of_rst {cs : List Cycle} (s : State)
    (hrst : ∀ c ∈ cs, c.rst = true) : runCycles cs s.applyReset = s.applyReset := by
  induction cs with
  | nil => rfl
  | cons c cs ih =>
    obtain ⟨hc, hcs⟩ := List.forall_mem_cons.1 hrst
    rw [runCycles_cons, recordEdge_of_rst _ hc, State.applyReset_applyReset, ih hcs]

/-- A cycle is idle when it presents neither reset nor a command (rule R81). -/
theorem Cycle.isIdle_iff {c : Cycle} : c.isIdle = true ↔ c.rst = false ∧ c.cmdValid = false := by
  simp

/-- An idle edge is recorded as no change (rule R81). -/
theorem recordEdge_of_isIdle {c : Cycle} (s : State) (hidle : c.isIdle = true) :
    recordEdge c s = s := by
  obtain ⟨hrst, hcmd⟩ := Cycle.isIdle_iff.1 hidle
  exact recordEdge_of_next (clockEdge_of_idle s hrst hcmd)

/-- A run ends as the run with its idle cycles taken out (rule R81). -/
theorem runCycles_filter_not_isIdle (cs : List Cycle) (s : State) :
    runCycles (cs.filter fun c => !c.isIdle) s = runCycles cs s := by
  induction cs generalizing s with
  | nil => rfl
  | cons c cs ih =>
    cases hidle : c.isIdle with
    | true =>
      rw [List.filter_cons_of_neg (by rw [hidle]; decide), ih, runCycles_cons,
        recordEdge_of_isIdle s hidle]
    | false =>
      rw [List.filter_cons_of_pos (by rw [hidle]; decide), runCycles_cons, runCycles_cons, ih]

/-- Settles O36: the reset is all that a reset edge does, and after one reset edge the further ones
find a copy that was just reset. -/
theorem resetEdgeWinsAndRestoresResetState : Obligations.ResetEdgeWinsAndRestoresResetState := by
  refine ⟨fun c s hrst => ⟨clockEdge_of_rst s hrst, fun b => portOutputs_of_rst b s hrst⟩,
    fun cs c s hrst hcs => ?_⟩
  rw [runCycles_cons, runCycles_cons, runCycles_nil, recordEdge_of_rst s hrst,
    runCycles_applyReset_of_rst s hcs]

/-- Settles O42: an idle edge is the identity and shows no response, so a run's idle cycles can be
left out one by one. -/
theorem idleCyclesChangeNothing : Obligations.IdleCyclesChangeNothing := by
  refine ⟨fun c s hidle => ?_, fun cs s => (runCycles_filter_not_isIdle cs s).symm⟩
  obtain ⟨hrst, hcmd⟩ := Cycle.isIdle_iff.1 hidle
  exact ⟨clockEdge_of_idle s hrst hcmd,
    fun anyByte => congrArg (Option.map _) (portOutputs_of_not_cmdValid anyByte s hcmd)⟩

end Sys2Proof.Machine
end

section
/-! PROOFS. Commands presented on the port: a presented command is the command executed, and the
bytes of an open call only walk the accumulator. Then O38. -/

namespace Sys2Proof.Machine

/-- The decoder reads a command back from its canonical word (rules R34, R36). -/
@[simp] theorem decode_encode (i : Instr) : decode (encode i) = i := by
  cases i with
  | init => exact decode_append_init _
  | seed s => exact decode_append_seed s
  | byte b => exact decode_append_byte b
  | fin => exact decode_append_fin _

/-- The port carries the word that is presented (rules R33, R40). -/
@[simp] theorem Cycle.word_present (w : CmdWord) : (Cycle.present w).word = w :=
  opField_append_dField w

/-- The edge of a presented command runs that command (rule R40). -/
theorem clockEdge_present_encode (i : Instr) (s : State) :
    clockEdge (Cycle.present (encode i)) s = exec i s := by
  rw [clockEdge_of_cmdValid s rfl rfl, Cycle.word_present, decode_encode]

/-- Commands presented back to back: the first, then the rest. -/
@[simp] theorem presentAll_cons (i : Instr) (is : List Instr) :
    presentAll (i :: is) = Cycle.present (encode i) :: presentAll is := rfl

/-- A run over a concatenation is one run after the other. -/
theorem runCycles_append (cs ds : List Cycle) (s : State) :
    runCycles (cs ++ ds) s = runCycles ds (runCycles cs s) :=
  List.foldl_append

/-- Writing back the value `ACC` holds changes nothing. -/
theorem State.setAcc_of_acc {s : State} {a : Byte} (ha : s.acc = some a) : s.setAcc a = s := by
  cases s; cases ha; rfl

/-- Of two writes of `ACC` the later stands. -/
@[simp] theorem State.setAcc_setAcc (a b : Byte) (s : State) :
    (s.setAcc a).setAcc b = s.setAcc b := rfl

/-- A reset keeps nothing of `ACC` (rule R75). -/
@[simp] theorem State.applyReset_setAcc (a : Byte) (s : State) :
    (s.setAcc a).applyReset = s.applyReset := rfl

/-- A reset of a running copy changes `OPEN` and `ACC` alone (rule R74). -/
theorem State.applyReset_of_running {s : State} (hr : s.condition = .running) :
    s.applyReset = { s with openFlag := false, acc := none } := by
  simp [State.applyReset, hr]

/-- The bytes presented in an open call walk the accumulator and do nothing else (rule R46). -/
theorem runCycles_presentAll_bytes (data : List Byte) {s : State} {a : Byte}
    (hr : s.condition = .running) (ho : s.openFlag = true) (ha : s.acc = some a) :
    runCycles (presentAll (data.map Instr.byte)) s = s.setAcc (walk a data) := by
  induction data generalizing s a with
  | nil => exact (State.setAcc_of_acc ha).symm
  | cons b data ih =>
    have hedge : recordEdge (Cycle.present (encode (.byte b))) s = s.setAcc (foldByte a b) :=
      recordEdge_of_next ((clockEdge_present_encode _ s).trans (exec_byte_of_open b hr ho ha))
    rw [List.map_cons, presentAll_cons, runCycles_cons, hedge,
      ih (s := s.setAcc (foldByte a b)) hr ho rfl, State.setAcc_setAcc, walk_cons]

/-- Settles O38: the bytes have left nothing but a value in `ACC`, which the reset clears. -/
theorem resetAbandonsOpenCall : Obligations.ResetAbandonsOpenCall := by
  intro data c s hr ho hc hrst
  obtain ⟨a, ha⟩ := hc.exists_acc ho
  calc runCycles (presentAll (data.map Instr.byte) ++ [c]) s
    _ = recordEdge c (s.setAcc (walk a data)) := by
      rw [runCycles_append, runCycles_presentAll_bytes data hr ho ha, runCycles_cons, runCycles_nil]
    _ = (s.setAcc (walk a data)).applyReset := recordEdge_of_rst _ hrst
    _ = s.applyReset := State.applyReset_setAcc _ s
    _ = { s with openFlag := false, acc := none } := State.applyReset_of_running hr

end Sys2Proof.Machine
end

section
/-! PROOFS. Numbers and table words decoded: a number is a command word exactly when it fits ten
bits, and the numbering of a word decodes as the word. Then O4, O5, O3 and O6. -/

namespace Sys2Proof.Machine

/-- A number below 0x400 decodes as the word of its value (rules R33, R38). -/
theorem decodeNat_of_lt {w : Nat} (h : w < 1024) :
    decodeNat w = .ok (decode (BitVec.ofNat 10 w)) :=
  if_pos (decide_eq_true h)

/-- A number from 0x400 on is no command word (rule R38). -/
theorem decodeNat_of_ge {w : Nat} (h : 1024 ≤ w) : decodeNat w = .error .notACommandWord :=
  if_neg fun hwf => absurd (of_decide_eq_true hwf) (Nat.not_lt.2 h)

/-- The sixteen bits of a table row hold every command word (rule R38). -/
theorem toNat_mod_table_bits (w : CmdWord) : w.toNat % 2 ^ 16 = w.toNat :=
  Nat.mod_eq_of_lt (w.isLt.trans (by decide))

/-- The opcode table's numbering of a word decodes as the word (rules R33, R38). -/
theorem decodeTableWord_toNat (w : CmdWord) : decodeTableWord 16 w.toNat = some (decode w) := by
  rw [decodeTableWord, toNat_mod_table_bits, decodeNat_of_lt w.isLt, BitVec.ofNat_toNat,
    BitVec.setWidth_eq]
  rfl

/-- Settles O4: the table's numbering and the port both carry the canonical word, which decodes to
its command. -/
theorem decodeEncodeRoundTrip : Obligations.DecodeEncodeRoundTrip := by
  intro i _
  refine ⟨decode_encode i, ?_, ?_⟩
  · rw [decodeTableWord_toNat, decode_encode]
  · rw [Cycle.word_present, decode_encode]

/-- Settles O5: ten bits hold exactly the numbers below 1024. -/
theorem onlyTenBitWordsDecode : Obligations.OnlyTenBitWordsDecode :=
  fun _ => ⟨decodeNat_of_lt, decodeNat_of_ge⟩

/-- Settles O3: each word is its two fields `op` and `d`, read by the opcode map. -/
theorem writtenOutWordsDecode : Obligations.WrittenOutWordsDecode :=
  ⟨decode_append_init 0x00, decode_append_seed 0x4B, decode_append_byte 0x31,
    decode_append_fin 0x00⟩

/-- Settles O6: the reader takes a printed line for the command. -/
theorem printedCommandReadsBack : Obligations.PrintedCommandReadsBack := parseLine_printInstr

end Sys2Proof.Machine
end

section
/-! PROOFS. What a command, an edge and a step that completes leaves: a coherent copy, the host's
inputs and the fault record. Then O44, O35 and O16. -/

namespace Sys2Proof.Machine

/-- A command that completes ran on a running copy and leaves it running (rule R66). -/
theorem running_of_exec_eq_next {i : Instr} {s t : State} (h : exec i s = .next t) :
    s.condition = .running ∧ t.condition = .running := by
  obtain ⟨hr, -, ⟨-, rfl⟩ | ⟨v, -, rfl⟩ | ⟨b, a, -, -, rfl⟩ | ⟨a, -, -, rfl⟩⟩ := exec_cases h <;>
    exact ⟨hr, hr⟩

/-- A command that completes leaves a value in `ACC` exactly when it leaves a call open, whatever it
found there (rules R10, R11). -/
theorem coherent_of_exec_eq_next {i : Instr} {s t : State} (h : exec i s = .next t) :
    t.Coherent := by
  obtain ⟨-, -, ⟨-, rfl⟩ | ⟨v, -, rfl⟩ | ⟨b, a, -, -, rfl⟩ | ⟨a, -, -, rfl⟩⟩ := exec_cases h <;> rfl

/-- A copy just reset satisfies the step invariant (rules R18, R74). -/
theorem State.inv_applyReset (s : State) : s.applyReset.Inv := ⟨rfl, nofun⟩

/-- An edge that completes keeps the step invariant (rules R10, R74). -/
theorem clockEdge_keeps_inv {c : Cycle} {s t : State} (hinv : s.Inv)
    (h : clockEdge c s = .next t) : t.Inv := by
  obtain ⟨-, rfl⟩ | ⟨-, -, hexec⟩ | ⟨-, -, rfl⟩ := clockEdge_cases h
  · exact s.inv_applyReset
  · exact ⟨coherent_of_exec_eq_next hexec, by simp [(running_of_exec_eq_next hexec).2]⟩
  · exact hinv

/-- Settles O44: a step holds the state or is an edge, and taking a cycle off the inputs touches
nothing the invariant speaks of. -/
theorem stepKeepsInvariant : Obligations.StepKeepsInvariant := by
  intro s t hinv h
  obtain ⟨-, rfl⟩ | ⟨c, rest, -, hedge⟩ := step_cases h
  · exact hinv
  · exact clockEdge_keeps_inv (s := s.withPending rest) hinv hedge

/-- Settles O35: neither `ACC` nor `OPEN` is set, and the copy runs. -/
theorem resetSatisfiesInvariant : Obligations.ResetSatisfiesInvariant :=
  State.reset.inv_applyReset

/-- Settles O16: of the outcomes a completed command can have, each writes only the registers its
rule names, and `FIN`'s adds the response. -/
theorem commandFrame : Obligations.CommandFrame := by
  intro i s t h
  obtain ⟨-, ho, ⟨rfl, rfl⟩ | ⟨v, rfl, rfl⟩ | ⟨b, a, rfl, -, rfl⟩ | ⟨a, rfl, -, rfl⟩⟩ :=
    exec_cases h
  · exact ⟨rfl, rfl, rfl⟩
  · exact ⟨rfl, rfl, rfl⟩
  · exact ⟨rfl, rfl, rfl, ho.symm⟩
  · exact ⟨rfl, rfl, finalise a, rfl⟩

end Sys2Proof.Machine
end

section
/-! PROOFS. A command at an accumulator that holds no value, a copy never reset, and the inversion of
a sequence violation: which command it names. Then O15, O37, O40 and O41. -/

namespace Sys2Proof.Machine

/-- The read of an accumulator that holds no value is the reader's sequence violation (rule R10). -/
theorem readAcc_of_none {cmd : Instr} {s : State} (go : Byte → Host.Outcome State Fault Refusal)
    (ha : s.acc = none) : readAcc cmd s go = .fault (.sequenceViolation cmd) := by
  simp [readAcc, ha, raiseSequenceViolation]

/-- On a running copy a guarded read of an empty accumulator is a sequence violation, whether the
guard or the read raises it (rules R10, R65). -/
theorem whenInOrder_readAcc_of_none {cmd : Instr} {s : State}
    (go : Byte → Host.Outcome State Fault Refusal) (hr : s.condition = .running)
    (ha : s.acc = none) :
    whenInOrder cmd s (readAcc cmd s go) = .fault (.sequenceViolation cmd) := by
  by_cases ho : s.openFlag = openRequired cmd
  · rw [whenInOrder_of_inOrder hr ho, readAcc_of_none go ha]
  · exact whenInOrder_of_outOfOrder hr ho

/-- Settles O15: `BYTE` and `FIN` are a guarded read of `ACC`. -/
theorem readOfEmptyAccumulatorFaults : Obligations.ReadOfEmptyAccumulatorFaults :=
  fun _ _ hr ha => ⟨whenInOrder_readAcc_of_none _ hr ha, whenInOrder_readAcc_of_none _ hr ha⟩

/-- The guard of every command refuses before the first reset (rules R74, R76). -/
theorem whenInOrder_of_unreset {s : State} (h : s.condition = .unreset) (cmd : Instr)
    (go : Host.Outcome State Fault Refusal) :
    whenInOrder cmd s go = .refused .beforeFirstReset := by
  simp [whenInOrder, whenRunning, h]

/-- Every command is refused before the first reset (rules R74, R76). -/
theorem exec_of_unreset {s : State} (h : s.condition = .unreset) (i : Instr) :
    exec i s = .refused .beforeFirstReset := by
  cases i <;> exact whenInOrder_of_unreset h _ _

/-- A refused edge is recorded as no change (rule R74). -/
theorem recordEdge_of_refused {c : Cycle} {s : State} {r : Refusal}
    (h : clockEdge c s = .refused r) : recordEdge c s = s := by
  simp [recordEdge, h]

/-- Without reset an edge leaves a copy never reset as it is (rule R74). -/
theorem recordEdge_of_unreset {c : Cycle} {s : State} (h : s.condition = .unreset)
    (hrst : c.rst = false) : recordEdge c s = s := by
  cases hcmd : c.cmdValid with
  | true =>
    exact recordEdge_of_refused ((clockEdge_of_cmdValid s hrst hcmd).trans (exec_of_unreset h _))
  | false => exact recordEdge_of_next (clockEdge_of_idle s hrst hcmd)

/-- Settles O37: the guard refuses, a refused or idle edge changes nothing, and a reset edge leads to
the reset values. -/
theorem commandBeforeFirstResetIsRefused : Obligations.CommandBeforeFirstResetIsRefused :=
  ⟨fun i _ h => exec_of_unreset h i, fun _ _ h hrst => recordEdge_of_unreset h hrst,
    fun _ s _ hrst => ⟨_, clockEdge_of_rst s hrst, s.inv_applyReset⟩⟩

/-- Settles O40: the edge that raises the violation records its command, and the next command meets
that record. -/
theorem laterCommandFaultNamesFirstOffender :
    Obligations.LaterCommandFaultNamesFirstOffender := by
  refine ⟨fun cmd i s h => exec_of_violated h i, fun cmd c d s h hrst hcmd => ?_⟩
  rw [recordEdge_of_violation h, clockEdge_of_cmdValid _ hrst hcmd, exec_of_violated rfl]

/-- A guarded command that is a sequence violation is one of its own, or of what it guards. -/
theorem whenInOrder_eq_violation {cmd cmd' : Instr} {s : State}
    {go : Host.Outcome State Fault Refusal}
    (h : whenInOrder cmd s go = .fault (.sequenceViolation cmd')) :
    cmd' = cmd ∨ go = .fault (.sequenceViolation cmd') := by
  cases hc : s.condition with
  | running =>
    by_cases ho : s.openFlag = openRequired cmd
    · exact .inr ((whenInOrder_of_inOrder hc ho).symm.trans h)
    · rw [whenInOrder_of_outOfOrder hc ho] at h
      cases h
      exact .inl rfl
  | violated first => rw [whenInOrder_of_violated hc] at h; cases h
  | unreset => rw [whenInOrder_of_unreset hc] at h; cases h

/-- A read of `ACC` that is a sequence violation is the reader's, or that of what goes on from the
value. -/
theorem readAcc_eq_violation {cmd cmd' : Instr} {s : State}
    {go : Byte → Host.Outcome State Fault Refusal}
    (h : readAcc cmd s go = .fault (.sequenceViolation cmd')) :
    cmd' = cmd ∨ ∃ a, go a = .fault (.sequenceViolation cmd') := by
  cases ha : s.acc with
  | some a => exact .inr ⟨a, (readAcc_of_some ha).symm.trans h⟩
  | none =>
    rw [readAcc_of_none go ha] at h
    cases h
    exact .inl rfl

/-- A command raises no sequence violation but its own (rule R69). -/
theorem eq_of_exec_eq_violation {i cmd : Instr} {s : State}
    (h : exec i s = .fault (.sequenceViolation cmd)) : cmd = i := by
  cases i with
  | init => exact (whenInOrder_eq_violation h).resolve_right nofun
  | seed v => exact (whenInOrder_eq_violation h).resolve_right nofun
  | byte b =>
    exact (whenInOrder_eq_violation h).elim id fun hread =>
      (readAcc_eq_violation hread).resolve_right nofun
  | fin =>
    exact (whenInOrder_eq_violation h).elim id fun hread =>
      (readAcc_eq_violation hread).resolve_right nofun

/-- The edge that raises a sequence violation ran the presented command, whose violation it is
(rules R65, R69). -/
theorem eq_decode_of_clockEdge_eq_violation {c : Cycle} {s : State} {cmd : Instr}
    (h : clockEdge c s = .fault (.sequenceViolation cmd)) : cmd = decode c.word := by
  cases hrst : c.rst with
  | true => rw [clockEdge_of_rst s hrst] at h; cases h
  | false =>
    cases hcmd : c.cmdValid with
    | true => exact eq_of_exec_eq_violation ((clockEdge_of_cmdValid s hrst hcmd).symm.trans h)
    | false => rw [clockEdge_of_idle s hrst hcmd] at h; cases h

/-- Settles O41: the violation is of the decoded command, and recording it sets the fault record
alone. -/
theorem violationIsPrecise : Obligations.ViolationIsPrecise :=
  fun _ _ _ h => ⟨eq_decode_of_clockEdge_eq_violation h, recordEdge_of_violation h⟩

end Sys2Proof.Machine
end

section
/-! PROOFS. The response pins in a cycle whose command completes. Then O18. -/

namespace Sys2Proof.Machine

/-- Everything a `FIN` that completes can have done (rule R50). -/
theorem exec_fin_eq_next {s t : State} (h : exec .fin s = .next t) :
    s.condition = .running ∧ s.openFlag = true ∧
      ∃ a, s.acc = some a ∧ t = ((s.emit (finalise a)).clearAcc).setOpen false := by
  obtain ⟨hr, ho, ⟨hi, -⟩ | ⟨v, hi, -⟩ | ⟨b, a, hi, -⟩ | ⟨a, -, ha, rfl⟩⟩ := exec_cases h
  · cases hi
  · cases hi
  · cases hi
  · exact ⟨hr, ho, a, ha, rfl⟩

/-- No command but `FIN` responds (rule R15). -/
theorem results_of_exec_eq_next {i : Instr} {s t : State} (h : exec i s = .next t)
    (hfin : i ≠ .fin) : t.results = s.results := by
  obtain ⟨-, -, ⟨-, rfl⟩ | ⟨v, -, rfl⟩ | ⟨b, a, -, -, rfl⟩ | ⟨a, hi, -⟩⟩ := exec_cases h
  · rfl
  · rfl
  · rfl
  · exact absurd hi hfin

/-- A `FIN` in order shows the result on the pins (rule R40). -/
theorem portOutputs_of_fin {c : Cycle} {s : State} {a : Byte} (anyByte : Byte)
    (hrst : c.rst = false) (hcmd : c.cmdValid = true) (hi : decode c.word = .fin)
    (hr : s.condition = .running) (ho : s.openFlag = true) (ha : s.acc = some a) :
    portOutputs anyByte s c = some ⟨true, finalise a⟩ := by
  simp [portOutputs, hrst, hcmd, hi, hr, ho, ha, orderAllows, openRequired]

/-- A command that completes and is no `FIN` shows no response on the pins (rule R40). -/
theorem portOutputs_of_exec_eq_next {c : Cycle} {s t : State} (anyByte : Byte)
    (hrst : c.rst = false) (hcmd : c.cmdValid = true)
    (h : exec (decode c.word) s = .next t) (hfin : decode c.word ≠ .fin) :
    portOutputs anyByte s c = some ⟨false, anyByte⟩ := by
  obtain ⟨hr, ho, ⟨hi, -⟩ | ⟨v, hi, -⟩ | ⟨b, a, hi, ha, -⟩ | ⟨a, hi, -⟩⟩ := exec_cases h
  · simp [portOutputs, hrst, hcmd, hr, ho, hi, orderAllows]
  · simp [portOutputs, hrst, hcmd, hr, ho, hi, orderAllows]
  · simp [portOutputs, hrst, hcmd, hr, ho, hi, ha, orderAllows]
  · exact absurd hi hfin

/-- Settles O18: a reset edge, an idle edge and every command but `FIN` show no response and give
none; `FIN` shows the one it gives. -/
theorem onlyFinResponds : Obligations.OnlyFinResponds := by
  intro anyByte c s t h
  obtain ⟨hrst, rfl⟩ | ⟨hrst, hcmd, hexec⟩ | ⟨-, hcmd, rfl⟩ := clockEdge_cases h
  · exact ⟨_, portOutputs_of_rst anyByte s hrst, by simp [hrst], nofun, fun _ => rfl⟩
  · by_cases hfin : decode c.word = .fin
    · obtain ⟨hr, ho, a, ha, rfl⟩ := exec_fin_eq_next (hfin ▸ hexec)
      exact ⟨_, portOutputs_of_fin anyByte hrst hcmd hfin hr ho ha, by simp [hrst, hcmd, hfin],
        fun _ => ⟨a, ha, rfl, rfl, rfl, rfl⟩, nofun⟩
    · exact ⟨_, portOutputs_of_exec_eq_next anyByte hrst hcmd hexec hfin, by simp [hfin], nofun,
        fun _ => results_of_exec_eq_next hexec hfin⟩
  · exact ⟨_, portOutputs_of_not_cmdValid anyByte _ hcmd, by simp [hcmd], nofun, fun _ => rfl⟩

end Sys2Proof.Machine
end

section
/-! PROOFS. Commands through the port: a command list presented back to back runs, one step a
command, as the list executed, and leaves the cycles behind it. Then O7 and O26. -/

namespace Sys2Proof.Machine

/-- The canonical words of a call: start, one word per byte, `FIN` (rules R36, R42). -/
theorem map_encode_callCommands (data : List Byte) (v : Byte) (first : Bool) :
    (callCommands data v first).map encode =
      encode (startCommand v first) :: (data.map fun b => packWord 0b10 b) ++
        [packWord 0b11 0x00] := by
  simp only [callCommands, List.map_cons, List.map_append, List.map_map, List.map_nil]
  rfl

/-- A call over n bytes is n + 2 commands (rules R41, R42). -/
theorem callCommands_length (data : List Byte) (v : Byte) (first : Bool) :
    (callCommands data v first).length = data.length + 2 := by
  simp [callCommands]

/-- Settles O7: a pseudo-instruction's words and commands are those of its call. -/
theorem pseudoInstructionIsOneCall : Obligations.PseudoInstructionIsOneCall := by
  refine fun data v => ⟨map_encode_callCommands data 0x00 true, map_encode_callCommands data v false,
    ?_, ?_, fun s hr ho => ⟨execAll_callCommands data 0x00 true hr ho,
      execAll_callCommands data v false hr ho⟩⟩
  · exact (List.length_map _).trans (callCommands_length data 0x00 true)
  · exact (List.length_map _).trans (callCommands_length data v false)

/-- A command reads nothing of the inputs still to come. -/
theorem exec_withPending (cs : List Cycle) (i : Instr) (s : State) :
    exec i (s.withPending cs) = mapNext (State.withPending cs) (exec i s) :=
  exec_underHost [] cs i s

/-- With a command's word presented the step runs the command (rules R6, R40). -/
theorem step_presentAll_cons (i : Instr) (rest : List Instr) (after : List Cycle) (s : State) :
    step (s.withPending (presentAll (i :: rest) ++ after)) =
      mapNext (State.withPending (presentAll rest ++ after)) (exec i s) :=
  (clockEdge_present_encode i _).trans (exec_withPending _ i s)

/-- A run is its first step, then the run from there, stopping where a step does. -/
theorem run_succ (k : Nat) (s : State) :
    core.run (k + 1) s =
      match step s with
      | .next t => core.run k t
      | .fault r => .fault r
      | .refused r => .refused r := by
  change _ = match core.step s with | .next t => _ | .fault r => _ | .refused r => _
  cases h : core.step s <;> simp only [Host.Core.run, h]

/-- Presented back to back, commands run as they are executed one at a time, one step each, and the
cycles behind them are untouched (rules R16, R77). -/
theorem run_presentAll (is : List Instr) (after : List Cycle) (s : State) :
    core.run is.length (s.withPending (presentAll is ++ after)) =
      execAll is (s.withPending after) := by
  induction is generalizing s with
  | nil => rfl
  | cons i rest ih =>
    rw [List.length_cons, run_succ, step_presentAll_cons, execAll, exec_withPending after]
    cases exec i s with
    | next t => exact ih t
    | fault r => rfl
    | refused r => rfl

/-- Presenting the cycles a copy has pending changes nothing. -/
theorem State.withPending_of_pending {s : State} {cs : List Cycle} (h : s.pending = cs) :
    s.withPending cs = s := by
  subst h; rfl

/-- Settles O26: the n + 2 steps are the n + 2 commands of the call executed. -/
theorem callOfNBytesTakesNPlusTwoSteps : Obligations.CallOfNBytesTakesNPlusTwoSteps := by
  intro data v first after s hr ho hpend
  have hrun := run_presentAll (callCommands data v first) after s
  rw [callCommands_length, State.withPending_of_pending hpend] at hrun
  exact hrun.trans (execAll_callCommands data v first (s := s.withPending after) hr ho)

end Sys2Proof.Machine
end

section
/-! PROOFS. The order of commands: the model's order check, one command at a time; the lists it
accepts are the concatenations of whole calls, and a running copy completes exactly these. Then
O31. -/

namespace Sys2Proof.Machine

/-- The order check, one command at a time: the command is in order, and the rest is checked at the
`OPEN` it leaves (rules R11, R53). -/
theorem traceWf_cons (opened : Bool) (i : Instr) (rest : List Instr) :
    traceWf opened (i :: rest) = (orderAllows opened i && traceWf (openAfter i) rest) := by
  cases opened <;> cases i <;> rfl

/-- The order check goes through the bytes and the `FIN` of an open call (rule R53). -/
theorem traceWf_bytes_fin (data : List Byte) (rest : List Instr) :
    traceWf true (data.map Instr.byte ++ .fin :: rest) = traceWf false rest := by
  induction data with
  | nil => rfl
  | cons b data ih => exact ih

/-- The order check goes through a whole call (rule R53). -/
theorem traceWf_commands_append (call : CallArgs) (rest : List Instr) :
    traceWf false (call.commands ++ rest) = traceWf false rest := by
  obtain ⟨data, v, first⟩ := call
  cases first <;> simpa [callCommands, startCommand, traceWf] using traceWf_bytes_fin data rest

/-- The order check accepts every concatenation of whole calls (rule R53). -/
theorem traceWf_flatMap_commands (calls : List CallArgs) :
    traceWf false (calls.flatMap CallArgs.commands) = true := by
  induction calls with
  | nil => rfl
  | cons call calls ih => rw [List.flatMap_cons, traceWf_commands_append, ih]

/-- What the order check accepts with a call open is the rest of that call, then whole calls; with
none open, whole calls (rule R53). -/
theorem exists_calls_of_traceWf (is : List Instr) :
    (traceWf true is = true → ∃ (data : List Byte) (calls : List CallArgs),
      is = data.map Instr.byte ++ .fin :: calls.flatMap CallArgs.commands) ∧
    (traceWf false is = true → ∃ calls : List CallArgs, is = calls.flatMap CallArgs.commands) := by
  induction is with
  | nil => exact ⟨nofun, fun _ => ⟨[], rfl⟩⟩
  | cons i rest ih =>
    obtain ⟨ihopen, ihclosed⟩ := ih
    cases i with
    | init =>
      refine ⟨nofun, fun h => ?_⟩
      obtain ⟨data, calls, rfl⟩ := ihopen h
      exact ⟨⟨data, 0x00, true⟩ :: calls, by simp [callCommands, startCommand]⟩
    | seed v =>
      refine ⟨nofun, fun h => ?_⟩
      obtain ⟨data, calls, rfl⟩ := ihopen h
      exact ⟨⟨data, v, false⟩ :: calls, by simp [callCommands, startCommand]⟩
    | byte b =>
      refine ⟨fun h => ?_, nofun⟩
      obtain ⟨data, calls, rfl⟩ := ihopen h
      exact ⟨b :: data, calls, rfl⟩
    | fin =>
      refine ⟨fun h => ?_, nofun⟩
      obtain ⟨calls, rfl⟩ := ihclosed h
      exact ⟨[], calls, rfl⟩

/-- The order check accepts exactly the concatenations of whole calls (rule R53). -/
theorem traceWf_iff_exists_calls (is : List Instr) :
    traceWf false is = true ↔ ∃ calls : List CallArgs, is = calls.flatMap CallArgs.commands := by
  refine ⟨(exists_calls_of_traceWf is).2, ?_⟩
  rintro ⟨calls, rfl⟩
  exact traceWf_flatMap_commands calls

/-- A running copy whose open call, if there is one, has a value in `ACC` completes a command exactly
when `OPEN` allows it (rules R64, R65). -/
theorem exists_exec_eq_next_iff {i : Instr} {s : State} (hr : s.condition = .running)
    (hacc : s.openFlag = true → s.Coherent) :
    (∃ t, exec i s = .next t) ↔ s.openFlag = openRequired i := by
  refine ⟨fun ⟨t, h⟩ => (openFlag_of_exec_eq_next h).1, fun ho => ?_⟩
  cases hopen : s.openFlag with
  | true => exact exec_of_inOrder hr (hacc hopen) ho
  | false =>
    obtain rfl | ⟨v, rfl⟩ := openRequired_eq_false_iff.1 (ho.symm.trans hopen)
    · exact ⟨_, exec_init_of_closed hr hopen⟩
    · exact ⟨_, exec_seed_of_closed v hr hopen⟩

/-- A list executed to its end: its first command completes, and the rest from there. -/
theorem execAll_cons_eq_next_iff {i : Instr} {rest : List Instr} {s t : State} :
    execAll (i :: rest) s = .next t ↔ ∃ u, exec i s = .next u ∧ execAll rest u = .next t := by
  rw [execAll]
  cases exec i s <;> simp

/-- A running copy executes a list to a state with no call open exactly when the order check accepts
it (rule R53). -/
theorem exists_execAll_closed_iff_traceWf {is : List Instr} {s : State}
    (hr : s.condition = .running) (hacc : s.openFlag = true → s.Coherent) :
    (∃ t, execAll is s = .next t ∧ t.openFlag = false) ↔ traceWf s.openFlag is = true := by
  induction is generalizing s with
  | nil => simp [traceWf]
  | cons i rest ih =>
    rw [traceWf_cons]
    by_cases ho : s.openFlag = openRequired i
    · obtain ⟨u, hu⟩ := (exists_exec_eq_next_iff hr hacc).2 ho
      rw [execAll_cons_of_next rest hu,
        ih (running_of_exec_eq_next hu).2 fun _ => coherent_of_exec_eq_next hu,
        (openFlag_of_exec_eq_next hu).2]
      simp [orderAllows, ho]
    · simp [execAll, exec_of_outOfOrder hr ho, orderAllows, ho]

/-- A list of commands executed to its end leaves the inputs still to come and the fault record as
they are. -/
theorem execAll_frame {is : List Instr} {s t : State} (h : execAll is s = .next t) :
    t.pending = s.pending ∧ t.condition = s.condition := by
  induction is generalizing s with
  | nil => cases h; exact ⟨rfl, rfl⟩
  | cons i rest ih =>
    obtain ⟨u, hu, hrest⟩ := execAll_cons_eq_next_iff.1 h
    obtain ⟨hpend, hcond, -⟩ := commandFrame i s u hu
    obtain ⟨hpend', hcond'⟩ := ih hrest
    exact ⟨hpend'.trans hpend, hcond'.trans hcond⟩

/-- A concatenation is executed part by part. -/
theorem execAll_append_of_next {is : List Instr} {s t : State} (js : List Instr)
    (h : execAll is s = .next t) : execAll (is ++ js) s = execAll js t := by
  induction is generalizing s with
  | nil => cases h; rfl
  | cons i rest ih =>
    obtain ⟨u, hu, hrest⟩ := execAll_cons_eq_next_iff.1 h
    rw [List.cons_append, execAll_cons_of_next _ hu, ih hrest]

/-- Whole calls one after the other add their results in order (rules R15, R52). -/
theorem results_of_execAll_calls {calls : List CallArgs} {s t : State}
    (hr : s.condition = .running) (ho : s.openFlag = false)
    (h : execAll (calls.flatMap CallArgs.commands) s = .next t) :
    t.results = s.results ++ calls.map CallArgs.result := by
  induction calls generalizing s with
  | nil => cases h; simp
  | cons call calls ih =>
    have hcall := execAll_callCommands call.data call.startValue call.isFirstCall hr ho
    rw [List.flatMap_cons, execAll_append_of_next _ hcall] at h
    have hrest := ih (s := { s with acc := none, results := s.results ++ [call.result] }) hr ho h
    rw [hrest, List.map_cons, List.append_assoc, List.singleton_append]

/-- A running copy with no call open executes a list to a state with no call open exactly when it is
a concatenation of whole calls (rule R53). -/
theorem exists_execAll_closed_iff_exists_calls (is : List Instr) {s : State}
    (hr : s.condition = .running) (ho : s.openFlag = false) :
    (∃ t, execAll is s = .next t ∧ t.openFlag = false) ↔
      ∃ calls : List CallArgs, is = calls.flatMap CallArgs.commands := by
  rw [exists_execAll_closed_iff_traceWf hr (by simp [ho]), ho, traceWf_iff_exists_calls]

/-- The steps over a list's words end in a complete run exactly when the list is executed to a state
with no call open: executing leaves nothing pending and no violation (rule R53). -/
theorem exists_run_complete_iff {is : List Instr} {s : State} (hr : s.condition = .running)
    (hpend : s.pending = presentAll is) :
    (∃ t, core.run is.length s = .next t ∧ t.Complete) ↔
      ∃ t, execAll is (s.withPending []) = .next t ∧ t.openFlag = false := by
  have hrun : core.run is.length s = execAll is (s.withPending []) := by
    rw [← run_presentAll, State.withPending_of_pending (by rw [hpend, List.append_nil])]
  refine exists_congr fun (t : State) => ?_
  rw [hrun]
  refine and_congr_right fun h => ?_
  obtain ⟨hnone, hcond⟩ := execAll_frame h
  exact ⟨fun ⟨_, ho, _⟩ => ho, fun ho => ⟨hnone, ho, hcond.trans hr⟩⟩

/-- Settles O31: a copy completes what the order check accepts, the order check accepts whole calls,
and the port runs the list as executed. -/
theorem orderedRunsAreConcatenationsOfCalls :
    Obligations.OrderedRunsAreConcatenationsOfCalls := by
  refine ⟨fun is s hr ho => exists_execAll_closed_iff_exists_calls is hr ho,
    fun calls s t hr ho h => results_of_execAll_calls hr ho h, traceWf_iff_exists_calls,
    fun is s hr ho hpend => ?_⟩
  exact (exists_run_complete_iff hr hpend).trans
    (exists_execAll_closed_iff_exists_calls is (s := s.withPending []) hr ho)

end Sys2Proof.Machine
end

section
/-! PROOFS. Edges one after the other, in one copy and in a system of copies. Then O45 and O46. -/

namespace Sys2Proof.Machine

/-- A run only appends to the responses: what the bare copy emits (rule R66). -/
theorem results_prefix_runCycles (cs : List Cycle) (s : State) :
    s.results <+: (runCycles cs s).results := by
  rw [runCycles_eq_bare_underHost]
  exact List.prefix_append _ _

/-- Settles O45: a step that completes holds the state or is the run of one edge. -/
theorem responsesAreNeverRevoked : Obligations.ResponsesAreNeverRevoked := by
  refine ⟨fun s t h => ?_, results_prefix_runCycles⟩
  obtain ⟨-, rfl⟩ | ⟨c, rest, -, hedge⟩ := step_cases h
  · exact List.prefix_rfl
  · have hrun : runCycles [c] (s.withPending rest) = t := recordEdge_of_next hedge
    exact hrun ▸ results_prefix_runCycles [c] (s.withPending rest)

/-- A run of a system: the first edge, then the rest. -/
theorem System.run_cons (k : Nat) (c : Cycle) (es : List (Nat × Cycle)) (sys : System) :
    System.run ((k, c) :: es) sys = System.run es (System.edge k c sys) := rfl

/-- An edge is recorded by the copy it is given to (rule R32). -/
theorem System.edge_getElem?_same (k : Nat) (c : Cycle) (sys : System) :
    (System.edge k c sys)[k]? = sys[k]?.map (recordEdge c) :=
  List.getElem?_modify_eq _ _ _

/-- An edge leaves every other copy as it is (rule R32). -/
theorem System.edge_getElem?_other {j k : Nat} (c : Cycle) (sys : System) (h : j ≠ k) :
    (System.edge j c sys)[k]? = sys[k]? :=
  List.getElem?_modify_ne _ _ h

/-- Copy `k` of a system runs its own edges alone (rule R32). -/
theorem System.run_getElem? (es : List (Nat × Cycle)) (sys : System) (k : Nat) :
    (System.run es sys)[k]? =
      sys[k]?.map (runCycles ((es.filter fun e => e.1 == k).map fun e => e.2)) := by
  induction es generalizing sys with
  | nil => exact Option.map_id'.symm
  | cons e es ih =>
    obtain ⟨j, c⟩ := e
    rw [System.run_cons, ih]
    by_cases h : j = k
    · subst h
      rw [System.edge_getElem?_same, Option.map_map, List.filter_cons_of_pos (by simp)]
      rfl
    · rw [System.edge_getElem?_other c sys h, List.filter_cons_of_neg (by simpa using h)]

/-- Settles O46: after a common reset every copy there is starts from the reset state. -/
theorem copiesAreIndependent : Obligations.CopiesAreIndependent := by
  refine ⟨System.run_getElem?, fun es nInst k hk => ?_⟩
  rw [System.run_getElem?, System.afterReset, List.getElem?_replicate_of_lt hk]
  rfl

end Sys2Proof.Machine
end

section
/-! PROOFS. The TABLE space: the cell at an address is the listing's entry of that number. Then
O22. -/

namespace Sys2Proof.Machine

/-- In a listing numbered from `n` on, the cell found at address `n + k` is entry `k`. -/
theorem find?_numbered (entries : List Byte) (n k : Nat) :
    (((entries.zipIdx n).map fun cell => (cell.2, cell.1)).find? fun cell : Host.Cell =>
      cell.1 == n + k).map (fun cell => cell.2) = entries[k]? := by
  induction entries generalizing n k with
  | nil => rfl
  | cons e rest ih =>
    cases k with
    | zero => simp
    | succ k =>
      rw [List.zipIdx_cons, List.map_cons, List.find?_cons_of_neg (by simp),
        ← Nat.succ_add_eq_add_succ]
      exact ih (n + 1) k

/-- The cell at an address is the listing's entry of that number (rules R23, R27). -/
theorem memRead_eq_getElem? (addr : Nat) : memRead addr = tableListing[addr]? := by
  simpa [memRead, tableSpace] using find?_numbered tableListing 0 addr

/-- An address has a cell exactly when it is below 256 (rule R23). -/
theorem memRead_isSome_iff (addr : Nat) : (memRead addr).isSome = true ↔ addr < 256 := by
  simp [memRead_eq_getElem?, tableListing_length]

/-- The cell at an index is the table's entry (rule R23). -/
theorem memRead_toNat (i : Byte) : memRead i.toNat = some (table i) := by
  rw [memRead_eq_getElem?, tableListing_getElem?]

/-- A `BYTE` that completes has folded its byte into the accumulator it found (rule R46). -/
theorem acc_of_exec_byte {a b : Byte} {s t : State} (ha : s.acc = some a)
    (h : exec (.byte b) s = .next t) : t.acc = some (foldByte a b) := by
  have hr := (running_of_exec_eq_next h).1
  have ho := (openFlag_of_exec_eq_next h).1
  rw [exec_byte_of_open b hr ho ha] at h
  cases h
  rfl

/-- Settles O22: `BYTE` leaves the entry at `a ^ b`, which is the cell at that address. -/
theorem tableSpaceIsPopulatedAndByteReadsIt :
    Obligations.TableSpaceIsPopulatedAndByteReadsIt :=
  ⟨fun addr => (memRead_isSome_iff addr).symm, memRead_toNat,
    fun a b _ _ ha h => (acc_of_exec_byte ha h).trans (memRead_toNat (a ^^^ b)).symm,
    tableSpace_rising⟩

end Sys2Proof.Machine
end

section
/-! PROOFS. One step in each kind of coming cycle. Then O43. -/

namespace Sys2Proof.Machine

/-- A step is the edge of the coming cycle (rules R6, R40). -/
theorem step_of_pending_cons {c : Cycle} {rest : List Cycle} {s : State}
    (h : s.pending = c :: rest) : step s = clockEdge c (s.withPending rest) := by
  simp [step, clockNext, h]

/-- With nothing presented the step holds the state (rule R81). -/
theorem step_of_pending_nil {s : State} (h : s.pending = []) : step s = .next s := by
  simp [step, clockNext, h]

/-- A word placed for the next step is the command that step runs (rule R38). -/
theorem step_withFetchWord (w : CmdWord) (s : State) :
    step (s.withFetchWord 16 w.toNat) = exec (decode w) s := by
  have hw : BitVec.ofNat 10 (w.toNat % 2 ^ 16) = w := by
    rw [toNat_mod_table_bits, BitVec.ofNat_toNat, BitVec.setWidth_eq]
  rw [State.withFetchWord, hw, step_of_pending_cons rfl, clockEdge_of_cmdValid _ rfl rfl,
    Cycle.word_present]
  rfl

/-- Settles O43: the edge of the coming cycle, for each thing the cycle can present. -/
theorem stepRunsThePresentedCommand : Obligations.StepRunsThePresentedCommand := by
  refine ⟨fun c rest s h => step_of_pending_cons h, fun c rest s h hrst => ?_,
    fun c rest s h hidle => ?_, fun i rest s _ => ?_, fun c rest s h hrst hcmd => ?_,
    fun s h => step_of_pending_nil h, step_withFetchWord⟩
  · exact (step_of_pending_cons h).trans (clockEdge_of_rst _ hrst)
  · obtain ⟨hrst, hcmd⟩ := Cycle.isIdle_iff.1 hidle
    exact (step_of_pending_cons h).trans (clockEdge_of_idle _ hrst hcmd)
  · exact (step_of_pending_cons rfl).trans (clockEdge_present_encode i _)
  · exact (step_of_pending_cons h).trans (clockEdge_of_cmdValid _ hrst hcmd)

end Sys2Proof.Machine
end

section
/-! PROOFS. Bytes as polynomials over GF(2). XOR is addition and a round of the bitwise procedure is
multiplication by x up to a multiple of the generator; so eight rounds, and the folds of a whole
message, are remainders by the generator. Then O20 and O24. -/

namespace Sys2Proof.Claims

open Polynomial Sys2Proof.Machine

/-- XOR of bytes is addition of their polynomials. -/
theorem bytePoly_xor (v w : Byte) : bytePoly (v ^^^ w) = bytePoly v + bytePoly w := by
  rw [bytePoly, bytePoly, bytePoly, ← Finset.sum_add_distrib]
  refine Finset.sum_congr rfl fun k _ => ?_
  rw [BitVec.getLsbD_xor]
  cases v.getLsbD k <;> cases w.getLsbD k <;> simp [CharTwo.add_self_eq_zero]

/-- A byte's polynomial has a degree below that of the generator. -/
theorem degree_bytePoly_lt (v : Byte) : (bytePoly v).degree < 8 := by
  refine (degree_sum_le _ _).trans_lt ((Finset.sup_lt_iff (by decide)).2 fun k hk => ?_)
  split
  · rw [degree_X_pow]; exact_mod_cast Finset.mem_range.1 hk
  · rw [degree_zero]; exact WithBot.bot_lt_coe 8

/-- The generator is x^8 and the polynomial of `POLY` (rule R3). -/
theorem generator_eq : generator = X ^ 8 + bytePoly poly := by
  have hpoly : bytePoly poly = 1 + X ^ 2 + X ^ 3 + X ^ 4 := by
    simp [bytePoly, poly, Finset.sum_range_succ]
  rw [generator, hpoly]
  ring

/-- The polynomial of `POLY` is of lower degree than x^8. -/
theorem degree_bytePoly_poly_lt : (bytePoly poly).degree < (X ^ 8 : (ZMod 2)[X]).degree := by
  rw [degree_X_pow]; exact degree_bytePoly_lt poly

/-- The leading term of the generator is x^8, so that one can divide by it. -/
theorem generator_monic : generator.Monic := by
  rw [generator_eq]
  exact monic_X_pow_add (degree_bytePoly_lt poly)

/-- The leading term of the generator is x^8, so that a remainder fits a byte. -/
theorem degree_generator : generator.degree = 8 := by
  rw [generator_eq, degree_add_eq_left_of_degree_lt degree_bytePoly_poly_lt, degree_X_pow]; rfl

/-- A shift within eight bits moves the lower seven bits up by one. -/
theorem bytePoly_shiftLeft (v : Byte) :
    bytePoly (v <<< 1) = ∑ k ∈ Finset.range 7, if v.getLsbD k then X ^ (k + 1) else 0 := by
  have hzero : (v <<< 1).getLsbD 0 = false := by simp
  rw [bytePoly, Finset.sum_range_succ', hzero, if_neg Bool.false_ne_true, add_zero]
  refine Finset.sum_congr rfl fun k hk => ?_
  have hk : k + 1 < 8 := by have := Finset.mem_range.1 hk; omega
  rw [BitVec.getLsbD_shiftLeft]
  simp [hk]

/-- Multiplication by x is a shift, but for the bit shifted out, which becomes the term x^8. -/
theorem bytePoly_mul_X (v : Byte) :
    bytePoly v * X = bytePoly (v <<< 1) + if v.getLsbD 7 then X ^ 8 else 0 := by
  rw [bytePoly_shiftLeft, bytePoly, Finset.sum_mul, Finset.sum_range_succ]
  simp only [ite_mul, zero_mul, ← pow_succ]

/-- A round is multiplication by x, less the generator where the bit shifted out was 1
(rule R21). -/
theorem bytePoly_mul_X_eq_crcRound_add (r : Byte) :
    bytePoly r * X = bytePoly (crcRound r) + if r.getLsbD 7 then generator else 0 := by
  rw [bytePoly_mul_X, crcRound]
  cases r.getLsbD 7 with
  | false => rfl
  | true =>
    simp only [if_true, bytePoly_xor, generator_eq]
    linear_combination -CharTwo.add_self_eq_zero (bytePoly poly)

/-- A round is multiplication by x modulo the generator (rule R21). -/
theorem generator_dvd_crcRound (r : Byte) :
    generator ∣ bytePoly r * X - bytePoly (crcRound r) := by
  rw [bytePoly_mul_X_eq_crcRound_add, add_sub_cancel_left]
  split
  · exact dvd_rfl
  · exact dvd_zero _

/-- Any number of rounds multiplies by that power of x modulo the generator (rule R21). -/
theorem generator_dvd_iterate_crcRound (n : Nat) (r : Byte) :
    generator ∣ bytePoly r * X ^ n - bytePoly (crcRound^[n] r) := by
  induction n generalizing r with
  | zero => simp
  | succ n ih =>
    have hsplit : bytePoly r * X ^ (n + 1) - bytePoly (crcRound^[n] (crcRound r)) =
        (bytePoly r * X - bytePoly (crcRound r)) * X ^ n +
          (bytePoly (crcRound r) * X ^ n - bytePoly (crcRound^[n] (crcRound r))) := by ring
    rw [Function.iterate_succ_apply, hsplit]
    exact dvd_add ((generator_dvd_crcRound r).mul_right _) (ih (crcRound r))

/-- A table entry is its index times x^8 modulo the generator (rule R21). -/
theorem generator_dvd_table (i : Byte) : generator ∣ bytePoly i * X ^ 8 - bytePoly (table i) := by
  rw [table_eq_iterate_crcRound]
  exact generator_dvd_iterate_crcRound 8 i

/-- Folding a byte in is adding it and multiplying by x^8 modulo the generator (rule R47). -/
theorem generator_dvd_foldByte (a b : Byte) :
    generator ∣ (bytePoly a + bytePoly b) * X ^ 8 - bytePoly (foldByte a b) := by
  rw [← bytePoly_xor]
  exact generator_dvd_table (a ^^^ b)

/-- Folding a message in is polynomial arithmetic modulo the generator (rule R47). -/
theorem generator_dvd_walk (a : Byte) (m : List Byte) :
    generator ∣ bytePoly a * X ^ (8 * m.length) + messagePoly m * X ^ 8 - bytePoly (walk a m) := by
  induction m generalizing a with
  | nil => simp [messagePoly]
  | cons b rest ih =>
    have hsplit : bytePoly a * X ^ (8 * (rest.length + 1)) +
          (bytePoly b * X ^ (8 * rest.length) + messagePoly rest) * X ^ 8 -
          bytePoly (walk (foldByte a b) rest) =
        ((bytePoly a + bytePoly b) * X ^ 8 - bytePoly (foldByte a b)) * X ^ (8 * rest.length) +
          (bytePoly (foldByte a b) * X ^ (8 * rest.length) + messagePoly rest * X ^ 8 -
            bytePoly (walk (foldByte a b) rest)) := by ring
    rw [List.length_cons, messagePoly, walk_cons, hsplit]
    exact dvd_add ((generator_dvd_foldByte a b).mul_right _) (ih (foldByte a b))

/-- A byte equal to a polynomial modulo the generator is its remainder: the degree is low enough. -/
theorem bytePoly_eq_modByMonic {v : Byte} {p : (ZMod 2)[X]} (h : generator ∣ p - bytePoly v) :
    bytePoly v = p %ₘ generator :=
  calc bytePoly v
    _ = bytePoly v %ₘ generator := by
      rw [(modByMonic_eq_self_iff generator_monic).2 (degree_generator ▸ degree_bytePoly_lt v)]
    _ = p %ₘ generator := (modByMonic_eq_of_dvd_sub generator_monic h).symm

/-- Settles O20: eight rounds multiply by x^8 modulo the generator. -/
theorem tableEntryIsPolynomialRemainder : Obligations.TableEntryIsPolynomialRemainder :=
  fun i => bytePoly_eq_modByMonic (generator_dvd_table i)

/-- Settles O24: a `BYTE` is a fold, and a message is its folds one after the other. -/
theorem tableWalkIsPolynomialDivision : Obligations.TableWalkIsPolynomialDivision :=
  ⟨fun a b _ _ ha h =>
      ⟨_, acc_of_exec_byte ha h, bytePoly_eq_modByMonic (generator_dvd_foldByte a b)⟩,
    fun a b => bytePoly_eq_modByMonic (generator_dvd_foldByte a b),
    fun a m => bytePoly_eq_modByMonic (generator_dvd_walk a m)⟩

end Sys2Proof.Claims
end
